-- ==== Sys2Proof/Word.lean ====
section
/-! DEFINITION. The machine's word and the narrower bit patterns that instructions are made of
(00_scope.md R3, R4, R5). The number readings of a word (`s32`, `bits32`, `sext16`, `wrap32`)
are in Machine/Operands.lean. -/

namespace Sys2Proof

/-- A register or memory word: a 32-bit pattern (R5). -/
abbrev Word := BitVec 32

/-- The raw low half of an instruction word, the decoder's `fieldC` (R51). -/
abbrev Field16 := BitVec 16

/-- The number of a general register, 0 to 7 (R11, R13: every 3-bit field selects one). -/
abbrev RegIndex := Fin 8

end Sys2Proof
end

