-- ==== Sys2Proof/Syntax.lean ====
section
/-! DEFINITION. The instructions of CORE: one constructor per row of spec/opcode_table.json
(30_encoding.md R54). A constructor holds the fields its instruction reads and none of the bits
that the decoder ignores (R55). -/

namespace Sys2Proof

/-- The eight instructions (R54). `fieldC` of add and nor is the whole raw field, because a value
above 7 is an instruction too: it faults when it runs (R53). -/
inductive Instr where
  /-- Opcode 0, register format (R47, R80). -/
  | add (regA regB : RegIndex) (fieldC : Field16)
  /-- Opcode 1, register format (R47, R81). -/
  | nor (regA regB : RegIndex) (fieldC : Field16)
  /-- Opcode 2, immediate format (R48, R85). -/
  | lw (regA regB : RegIndex) (offset : Field16)
  /-- Opcode 3, immediate format (R48, R86). -/
  | sw (regA regB : RegIndex) (offset : Field16)
  /-- Opcode 4, immediate format (R48, R87). -/
  | beq (regA regB : RegIndex) (offset : Field16)
  /-- Opcode 5, jump format (R49, R90). -/
  | jalr (regA regB : RegIndex)
  /-- Opcode 6, no-operand format (R50, R95). -/
  | halt
  /-- Opcode 7, no-operand format (R50, R96). -/
  | noop
deriving DecidableEq, Repr

end Sys2Proof
end

