-- ==== Sys2Proof/WellFormed.lean ====
section
/-! DEFINITION. Which instructions are well formed: those that are no reserved encoding.
30_encoding.md R56: for add and nor, bits 15:3 set "is the only reserved encoding that faults".
An ill-formed instruction still decodes and still steps: it raises a fault (R104). -/

namespace Sys2Proof

/-- `fieldC` names a register: bits 15:3 are zero (R47, R53). -/
def namesRegister (fieldC : Field16) : Bool := decide (fieldC.toNat ≤ 7)

/-- The instruction is none of the reserved encodings (R56). -/
def Instr.wf : Instr → Bool
  | .add _ _ fieldC => namesRegister fieldC
  | .nor _ _ fieldC => namesRegister fieldC
  | .lw _ _ _ => true
  | .sw _ _ _ => true
  | .beq _ _ _ => true
  | .jalr _ _ => true
  | .halt => true
  | .noop => true

end Sys2Proof
end

