-- ==== Sys2Proof/Decode.lean ====
section
/-! DEFINITION. The decoder (30_encoding.md R51, R54) and, after it, the encoder (R46 to R50, R54,
R72). The decoder is total and rejects no word: every opcode value is assigned (R57), unused bits
are ignored (R55), and the one reserved encoding decodes to an instruction that faults (R53, R56). -/

namespace Sys2Proof

/-- What the decoder extracts from a word (R51). -/
structure Fields where
  /-- `w[24:22]` -/
  op : Fin 8
  /-- `w[21:19]` -/
  fieldA : RegIndex
  /-- `w[18:16]` -/
  fieldB : RegIndex
  /-- `w[15:0]`, raw -/
  fieldC : Field16
deriving DecidableEq, Repr

/-- The 3-bit field whose lowest bit is bit `lo` of the word, as an unsigned number (R4). -/
def field3 (w : Word) (lo : Nat) : Fin 8 := (w.extractLsb' lo 3).toFin

/-- `decode(w)` of R51: the four fields at the bit positions of R46. -/
def fieldsOf (w : Word) : Fields :=
  { op := field3 w 22, fieldA := field3 w 19, fieldB := field3 w 16,
    fieldC := w.extractLsb' 0 16 }

/-- The instruction that the opcode selects (R54). -/
def Fields.instr (d : Fields) : Instr :=
  match d.op with
  | 0 => .add d.fieldA d.fieldB d.fieldC
  | 1 => .nor d.fieldA d.fieldB d.fieldC
  | 2 => .lw d.fieldA d.fieldB d.fieldC
  | 3 => .sw d.fieldA d.fieldB d.fieldC
  | 4 => .beq d.fieldA d.fieldB d.fieldC
  | 5 => .jalr d.fieldA d.fieldB
  | 6 => .halt
  | 7 => .noop

/-- The instruction of a word: total, and it depends on the word alone (R51, R60). -/
def decode (w : Word) : Instr := (fieldsOf w).instr

/-- The opcode number of an instruction (R54). -/
def Instr.opcode : Instr → Fin 8
  | .add _ _ _ => 0
  | .nor _ _ _ => 1
  | .lw _ _ _ => 2
  | .sw _ _ _ => 3
  | .beq _ _ _ => 4
  | .jalr _ _ => 5
  | .halt => 6
  | .noop => 7

/-- The canonical word `(op << 22) | (regA << 19) | (regB << 16) | low16` (R54). -/
def canonicalWord (op : Fin 8) (regA regB : RegIndex) (low16 : Field16) : Word :=
  (BitVec.ofNat 32 op.val <<< 22) ||| (BitVec.ofNat 32 regA.val <<< 19) |||
    (BitVec.ofNat 32 regB.val <<< 16) ||| low16.setWidth 32

/-- The word the assembler emits for an instruction, every unused bit zero (R55, R72). -/
def encode (i : Instr) : Word :=
  match i with
  | .add regA regB fieldC => canonicalWord i.opcode regA regB fieldC
  | .nor regA regB fieldC => canonicalWord i.opcode regA regB fieldC
  | .lw regA regB offset => canonicalWord i.opcode regA regB offset
  | .sw regA regB offset => canonicalWord i.opcode regA regB offset
  | .beq regA regB offset => canonicalWord i.opcode regA regB offset
  | .jalr regA regB => canonicalWord i.opcode regA regB 0
  | .halt => canonicalWord i.opcode 0 0 0
  | .noop => canonicalWord i.opcode 0 0 0

/-- The instruction the decoder reads from `nbits` bits numbered as spec/opcode_table.json numbers
them. An instruction is one word of 32 bits (R45), so a number that needs more bits is none. -/
def decodeTableWord (nbits w : Nat) : Option Instr :=
  if w % 2 ^ nbits < 2 ^ 32 then some (decode (BitVec.ofNat 32 (w % 2 ^ nbits))) else none

end Sys2Proof
end

