-- ==== Sys2Proof/Config.lean ====
section
/-! DEFINITION. What one implementation of CORE fixes: the memory size (00_scope.md R3).
The spec has no undefined result and so this model has no free value. -/

namespace Sys2Proof

/-- The parameters of one CORE. `MEM_SIZE` is "the only open parameter of the hardware" (R3). -/
structure Config where
  /-- `MEM_SIZE`, the number of words of memory. -/
  memSize : Nat
deriving DecidableEq, Repr

/-- The constraint `1 <= MEM_SIZE <= 2^31 - 1` (R3, decision D1). -/
abbrev Config.Legal (c : Config) : Prop := 1 ≤ c.memSize ∧ c.memSize ≤ 2 ^ 31 - 1

/-- PRESUMED (log 1, unsafe for a claim that uses it): the memory size `State.reset` has, the
65536 words of the examples in 95_test_vectors.md. Every statement is for every size. -/
def Config.standard : Config := { memSize := 65536 }

end Sys2Proof
end

