-- ==== Sys2Proof/Machine/State.lean ====
section
/-! DEFINITION. The state of CORE (10_state.md R10: "The architectural state of CORE is exactly the
following"), its reset value (R26), and the reasons a step does not happen. Plain data only. -/

namespace Sys2Proof.Machine

/-- The run status (R18). -/
inductive Status where
  /-- The core executes the instruction at `pc`. -/
  | running
  /-- A halt has executed; terminal. -/
  | halted
  /-- A fault was raised; terminal. -/
  | faulted
deriving DecidableEq, Repr

/-- The fault codes (60_exceptions.md R101). -/
inductive FaultCode where
  /-- Code 1, raised by the fetch (R102). -/
  | pcOutOfRange
  /-- Code 2, raised by lw and sw (R103). -/
  | memAddrOutOfRange
  /-- Code 3, raised by add and nor (R104). -/
  | regIndexOutOfRange
  /-- Code 4, which no word can raise (R105); kept as a name and never raised. -/
  | unrecognizedOpcode
deriving DecidableEq, Repr

/-- The fault record (R21). -/
structure FaultRecord where
  /-- The fault code. -/
  code : FaultCode
  /-- The pc of the faulting fetch or instruction. -/
  pc : Int
  /-- The fetched word, or none for a pc fault. -/
  word : Option Word
  /-- The effective address of a memory fault, the destination index of a register-index fault;
  none for a pc fault, for which R21 and R101 name no address (log 8). -/
  addr : Option Int
deriving DecidableEq, Repr

/-- The word memory, sparse: (word address, word) pairs in one canonical form (`Memory.wf` in
Machine/Ops.lean). 20_memory.md R34: "A model keeps words, not bytes" (log 2). -/
abbrev Memory := List (Nat × Word)

/-- The architectural state (R10), with the launch values it was loaded under. -/
structure State where
  /-- The parameters of this CORE, fixed for the machine: nothing writes them (00_scope.md R3, log 1). -/
  config : Config
  /-- `N_LOADED`, the length of the loaded image; a launch value that only the dump reads (R10, R27). -/
  nLoaded : Nat
  /-- The program counter, an integer (R14). -/
  pc : Int
  /-- The general registers `x[0]` to `x[7]`; none is hardwired (R11). -/
  x : Vector Word 8
  /-- The memory (20_memory.md R30). -/
  mem : Memory
  /-- The run status (R18). -/
  status : Status
  /-- The count of executed instructions, unbounded (R19). -/
  icount : Nat
  /-- The fault record, present only in status Faulted (R21). -/
  fault : Option FaultRecord
deriving DecidableEq, Repr

/-- Why `step` does not run a step: CORE has stopped. "Halted and Faulted have no outgoing
transition" (R18). A fault of the machine itself is NOT one of these: raising it is a next state
with status Faulted and the record written (60_exceptions.md R100; log 5, 6). -/
inductive Fault where
  /-- Raised by `step` when status is Halted (R18, R110). Safe: the spec enables no step there. -/
  | coreHalted
  /-- Raised by `step` when status is Faulted (R100, R110). Safe: the spec enables no step there. -/
  | coreFaulted
deriving DecidableEq, Repr

/-- Why an instruction has no meaning. Every instruction of CORE has one. -/
inductive Refusal where
  /-- The host's name for an arm without a meaning; no arm answers it. Safe. -/
  | notModelled (mnemonic : String)
deriving DecidableEq, Repr

/-- The state after reset (R26, 70_reset_and_hazards.md R120) with the empty image: pc 0, every
register 0, every memory word 0 (nothing listed), Running, icount 0, no fault (log 3, 4, 19). -/
def State.reset : State :=
  { config := Config.standard
    nLoaded := 0
    pc := 0
    x := Vector.replicate 8 0
    mem := []
    status := .running
    icount := 0
    fault := none }

end Sys2Proof.Machine
end

