-- ==== Sys2Proof/Machine/Flags.lean ====
section
/-! DEFINITION. CORE "has no flags, condition codes or predicates" (10_state.md R17), so no
instruction computes a flag. What stands here instead: the one condition the machine tests (beq's
comparison) and the test of the run status. -/

namespace Sys2Proof.Machine

/-- The condition of beq: all 32 bits equal (41_immediate_class.md R87). It sets no flag (R17). -/
def wordsEqual (a b : Word) : Bool := a == b

/-- The core runs: the only status in which a step is enabled (10_state.md R18, R24). -/
def State.isRunning (s : State) : Bool := s.status == .running

end Sys2Proof.Machine
end

