-- ==== Sys2Proof/Machine/Operands.lean ====
section
/-! DEFINITION. The operand forms of CORE and its arithmetic: how a pattern is read as a number
(00_scope.md R5, R6, R7), the one addressing mode (41_immediate_class.md R84), the branch target
(R87), the destination field of add and nor (30_encoding.md R53), and the two ALU functions. -/

namespace Sys2Proof.Machine

/-- `s32(v)`: a 32-bit pattern read as a signed integer (R5). -/
def s32 (v : Word) : Int := v.toInt

/-- `bits32(v)`: the 32-bit pattern of an integer, modulo `2^32` (R5, R7). On an integer outside
the signed range it is the pattern of `wrap32` of it. -/
def bits32 (v : Int) : Word := BitVec.ofInt 32 v

/-- `wrap32(v)`: the integer in the signed 32-bit range congruent to `v` modulo `2^32` (R7). -/
def wrap32 (v : Int) : Int := (v + 2 ^ 31) % 2 ^ 32 - 2 ^ 31

/-- `sext_16(f)`: "`f - 65536` when `f[15] = 1`, and `f` otherwise" (R6). -/
def sext16 (f : Field16) : Int := if f.getLsbD 15 then (f.toNat : Int) - 65536 else f.toNat

/-- The effective address of lw and sw, an exact integer that never wraps (R84). -/
def effectiveAddress (base : Word) (offset : Field16) : Int := s32 base + sext16 offset

/-- The target of a taken beq, an exact integer that never wraps (R87). -/
def branchTarget (pc : Int) (offset : Field16) : Int := pc + sext16 offset + 1

/-- The register that `fieldC` names, or none when it is above 7 (R53; UNVERIFIED, the spec's
decision D8, log 16). -/
def destRegister (fieldC : Field16) : Option RegIndex :=
  if h : fieldC.toNat < 8 then some ⟨fieldC.toNat, h⟩ else none

/-- The function of add: `wrap32(a + b)` as a pattern (R80; UNVERIFIED, the spec's decision D4,
log 13). -/
def addWord (a b : Word) : Word := bits32 (wrap32 (s32 a + s32 b))

/-- The function of nor: `~(a | b)`, all 32 bits (R81). -/
def norWord (a b : Word) : Word := ~~~(a ||| b)

end Sys2Proof.Machine
end

