-- ==== Sys2Proof/Machine/Ops.lean ====
section
/-! DEFINITION. The named operations over memory, registers and the step's bookkeeping, and raising
a fault, the one exception mechanism of CORE (60_exceptions.md R100). There is no trap entry and no
return from one beside it: "No instruction leaves Faulted or Halted" (R109, R110). -/

namespace Sys2Proof.Machine

/-! ## Memory (20_memory.md R30, R32, R33) -/

/-- What an address that is not listed reads as: "Words above the image hold 0" (R44, 10_state.md
R26; UNVERIFIED, the spec's decision D2, log 3). -/
def Memory.unlisted : Word := 0

/-- `mem[a]` (R32). -/
def Memory.read : Memory → Nat → Word
  | [], _ => Memory.unlisted
  | (k, v) :: rest, a => if k = a then v else Memory.read rest a

/-- Replace the word `mem[a]` by `v` (R33), keeping the canonical form `Memory.wf`. -/
def Memory.write : Memory → Nat → Word → Memory
  | [], a, v => if v = Memory.unlisted then [] else [(a, v)]
  | (k, u) :: rest, a, v =>
    if k < a then (k, u) :: Memory.write rest a v
    else if k = a then (if v = Memory.unlisted then rest else (a, v) :: rest)
    else if v = Memory.unlisted then (k, u) :: rest
    else (a, v) :: (k, u) :: rest

/-- The canonical form: addresses strictly rise, and no entry holds what an unlisted address reads as. -/
abbrev Memory.wf (m : Memory) : Prop :=
  m.Pairwise (fun c d => c.1 < d.1) ∧ ∀ c ∈ m, c.2 ≠ Memory.unlisted

/-- `a` is the address of a word: `0 <= a < MEM_SIZE` (R30; UNVERIFIED, the bound is `MEM_SIZE` and
not `N_LOADED` by the spec's decision D6, log 14). -/
def State.inMemory (s : State) (a : Int) : Bool := decide (0 ≤ a ∧ a < s.config.memSize)

/-- `MemRead(a, 1)` (R32), called only with an address in memory. -/
def State.memRead (s : State) (a : Int) : Word := s.mem.read a.toNat

/-- `MemWrite(a, 1, v)` (R33), called only with an address in memory. -/
def State.memWrite (s : State) (a : Int) (v : Word) : State :=
  { s with mem := s.mem.write a.toNat v }

/-- The word at `pc`, which a step fetches; none when `pc` is outside memory, where "No fetch takes
place" (60_exceptions.md R102). -/
def State.fetchedWord (s : State) : Option Word :=
  if s.inMemory s.pc then some (s.memRead s.pc) else none

/-! ## Registers (10_state.md R11) -/

/-- `x[i]`. -/
def State.readReg (s : State) (i : RegIndex) : Word := s.x[i.val]

/-- `x[i] <- v`: all 32 bits; no register is hardwired (R11). -/
def State.writeReg (s : State) (i : RegIndex) (v : Word) : State :=
  { s with x := s.x.set i.val v }

/-! ## The end of a step (10_state.md R24) -/

/-- The instruction commits: `icount <- icount + 1`, `pc <- next_pc` (R24). -/
def State.retire (s : State) (nextPc : Int) : State :=
  { s with icount := s.icount + 1, pc := nextPc }

/-- The instruction commits and the core stops: `status <- Halted` (R24, R95). -/
def State.retireHalted (s : State) (nextPc : Int) : State :=
  { s.retire nextPc with status := .halted }

/-- `raise`: the step has no effect but status Faulted and the fault record (60_exceptions.md R100,
R106; UNVERIFIED, not counted in icount by the spec's decision D11, log 17). The record's pc is the
pc of the step and its word the word fetched there: every check comes before the instruction's
writes, so memory still holds it (DEDUCED, log 7). -/
def State.raise (s : State) (code : FaultCode) (addr : Option Int) : State :=
  { s with
    status := .faulted
    fault := some { code := code, pc := s.pc, word := s.fetchedWord, addr := addr } }

end Sys2Proof.Machine
end

