-- ==== Sys2Proof/Machine/ImmediateClass.lean ====
section
/-! DEFINITION. The immediate-class instructions lw, sw and beq (41_immediate_class.md). -/

namespace Sys2Proof.Machine

/-- The shape of R85 and R86: compute the effective address from the registers before the
instruction, raise MEM_ADDR_OUT_OF_RANGE with it when it is outside memory (R103), else take the
data access and `pc + 1`. -/
def memoryOp (access : Int → State) (regA : RegIndex) (offset : Field16) (s : State) :
    Host.Outcome State Fault Refusal :=
  let ea := effectiveAddress (s.readReg regA) offset
  if s.inMemory ea then .next ((access ea).retire (s.pc + 1))
  else .next (s.raise .memAddrOutOfRange (some ea))

/-- `lw regA regB offset` (R85). -/
def execLw (regA regB : RegIndex) (offset : Field16) (s : State) :
    Host.Outcome State Fault Refusal :=
  memoryOp (fun ea => s.writeReg regB (s.memRead ea)) regA offset s

/-- `sw regA regB offset` (R86). -/
def execSw (regA regB : RegIndex) (offset : Field16) (s : State) :
    Host.Outcome State Fault Refusal :=
  memoryOp (fun ea => s.memWrite ea (s.readReg regB)) regA offset s

/-- `beq regA regB offset` (R87). -/
def execBeq (regA regB : RegIndex) (offset : Field16) (s : State) :
    Host.Outcome State Fault Refusal :=
  if wordsEqual (s.readReg regA) (s.readReg regB) then .next (s.retire (branchTarget s.pc offset))
  else .next (s.retire (s.pc + 1))

end Sys2Proof.Machine
end

