-- ==== Sys2Proof/Machine/JumpClass.lean ====
section
/-! DEFINITION. The jump-class instruction jalr (42_jump_class.md). -/

namespace Sys2Proof.Machine

/-- `jalr regA regB` (R90): the link is written first, and the target is read after it, so that
with `regA = regB` the jump goes to `pc + 1`. The new pc is the target itself, with no further
increment (UNVERIFIED, the spec's reading, 90_conflicts.md C1, log 12). The link is `pc + 1` as a
pattern; in a step it never wraps (log 10). -/
def execJalr (regA regB : RegIndex) (s : State) : Host.Outcome State Fault Refusal :=
  let linked := s.writeReg regB (bits32 (s.pc + 1))
  .next (linked.retire (s32 (linked.readReg regA)))

end Sys2Proof.Machine
end

