-- ==== Sys2Proof/Machine/NoOperandClass.lean ====
section
/-! DEFINITION. The no-operand instructions halt and noop (43_no_operand_class.md). -/

namespace Sys2Proof.Machine

/-- `halt` (R95): it commits and is counted, the pc stays, and status becomes Halted. -/
def execHalt (s : State) : Host.Outcome State Fault Refusal :=
  .next (s.retireHalted s.pc)

/-- `noop` (R96): only the pc advances, and icount as for every instruction. -/
def execNoop (s : State) : Host.Outcome State Fault Refusal :=
  .next (s.retire (s.pc + 1))

end Sys2Proof.Machine
end

