-- ==== Sys2Proof/Machine/RegisterClass.lean ====
section
/-! DEFINITION. The register-class instructions add and nor (40_register_class.md). -/

namespace Sys2Proof.Machine

/-- The shape of R80 and R81: the destination check first, then both reads, then the write of
`f` of them, and `pc + 1`. -/
def registerOp (f : Word → Word → Word) (regA regB : RegIndex) (fieldC : Field16) (s : State) :
    Host.Outcome State Fault Refusal :=
  match destRegister fieldC with
  | none => .next (s.raise .regIndexOutOfRange (some (fieldC.toNat : Int)))
  | some d => .next ((s.writeReg d (f (s.readReg regA) (s.readReg regB))).retire (s.pc + 1))

/-- `add regA regB destReg` (R80). -/
def execAdd (regA regB : RegIndex) (fieldC : Field16) (s : State) :
    Host.Outcome State Fault Refusal :=
  registerOp addWord regA regB fieldC s

/-- `nor regA regB destReg` (R81). -/
def execNor (regA regB : RegIndex) (fieldC : Field16) (s : State) :
    Host.Outcome State Fault Refusal :=
  registerOp norWord regA regB fieldC s

end Sys2Proof.Machine
end

