-- ==== Sys2Proof/Machine/Step.lean ====
section
/-! DEFINITION. One step of CORE (10_state.md R24), and the placing of an instruction where the next
step fetches it. -/

namespace Sys2Proof.Machine

/-- `step()` of R24: the pc check and the fetch, decode, and the instruction. A core that is Halted
or Faulted takes no step (R18, 60_exceptions.md R100). -/
def step (s : State) : Host.Outcome State Fault Refusal :=
  match s.status with
  | .halted => .fault .coreHalted
  | .faulted => .fault .coreFaulted
  | .running =>
    match s.fetchedWord with
    | none => .next (s.raise .pcOutOfRange none)
    | some w => exec (decode w) s

/-- `s` with the instruction of `nbits` bits `w` stored in the word at `pc`, where the next step
fetches it. A pc outside memory fetches no word, and `s` is left as it is (DESIGN CHOICE, log 20). -/
def State.withFetchWord (s : State) (nbits w : Nat) : State :=
  if s.inMemory s.pc then s.memWrite s.pc (BitVec.ofNat 32 (w % 2 ^ nbits)) else s

end Sys2Proof.Machine
end

