-- ==== Sys2Proof/Machine/Text.lean ====
section
/-! DEFINITION. The text that the assembler and the loader read and write, as lists of characters:
lines, tokens and decimal integers (30_encoding.md R62, R63, R68, R75). A character is a Lean
`Char` (PRESUMED, log 21). -/

namespace Sys2Proof.Machine

/-- A run of characters other than whitespace. An absent field is the empty token (R63). -/
abbrev Token := List Char

/-- "Whitespace is space, tab, carriage return and line feed" (R63, decision D18). -/
def isSpace (c : Char) : Bool := c == ' ' || c == '\t' || c == '\r' || c == '\n'

/-- The lines of a text, without their line feeds. The line feed that ends the text opens no
further line, and the last line may lack one (R62; DEDUCED, log 22). -/
def splitLines : List Char → List (List Char)
  | [] => []
  | c :: rest =>
    if c = '\n' then [] :: splitLines rest
    else
      match splitLines rest with
      | [] => [[c]]
      | l :: ls => (c :: l) :: ls

/-- The tokens of a line, left to right (R63). -/
def tokens : List Char → List Token
  | [] => []
  | c :: rest =>
    if isSpace c then tokens rest
    else
      match rest with
      | [] => [[c]]
      | d :: _ =>
        if isSpace d then [c] :: tokens rest
        else
          match tokens rest with
          | [] => [[c]]
          | t :: ts => (c :: t) :: ts

/-- `c` is a decimal digit `0` to `9` (R66, R68). -/
def isDigit (c : Char) : Bool := decide (48 ≤ c.toNat ∧ c.toNat ≤ 57)

/-- The base-10 value of digits read after a number whose value is `acc`. -/
def digitsValue (acc : Nat) : List Char → Option Nat
  | [] => some acc
  | c :: rest => if isDigit c then digitsValue (10 * acc + (c.toNat - 48)) rest else none

/-- `[0-9]+` in full, as a number (R68). -/
def parseDigits (t : Token) : Option Nat :=
  match t with
  | [] => none
  | c :: rest => digitsValue 0 (c :: rest)

/-- A decimal integer, "a token that matches `[+-]?[0-9]+` in full" (R68, decision D17). -/
def parseDecimal (t : Token) : Option Int :=
  match t with
  | '-' :: digits => (parseDigits digits).map fun n => -(n : Int)
  | '+' :: digits => (parseDigits digits).map fun n => (n : Int)
  | digits => (parseDigits digits).map fun n => (n : Int)

/-- A base-10 signed integer: no leading zeros, a minus sign for negatives (R75). -/
def renderInt (v : Int) : List Char :=
  if v < 0 then '-' :: Nat.toDigits 10 v.natAbs else Nat.toDigits 10 v.natAbs

end Sys2Proof.Machine
end

