-- ==== Sys2Proof/Machine/Assembler.lean ====
section
/-! DEFINITION. The two-pass assembler, in scope "as the toolchain contract" (00_scope.md section 2;
30_encoding.md R61 to R77). It is software around CORE: it fixes which words a source program is. -/

namespace Sys2Proof.Machine

/-- The assembler's errors (R62, R64 to R67, R71). -/
inductive AsmErrorKind where
  /-- `LineTooLongError` (R62). -/
  | lineTooLong
  /-- `UnknownOpcodeError` (R64; 90_conflicts.md C6). -/
  | unknownOpcode
  /-- `DuplicateLabelError` (R65). -/
  | duplicateLabel
  /-- `UndefinedLabelError` (R65, R69). -/
  | undefinedLabel
  /-- `InvalidLabelError` (R66). -/
  | invalidLabel
  /-- `RegisterRangeError` (R67). -/
  | registerRange
  /-- `OffsetRangeError` (R71, R73). -/
  | offsetRange
deriving DecidableEq, Repr

/-- The first error of a program (R77) and the line, counted from 0, where it was found. -/
structure AsmError where
  /-- Which error. -/
  kind : AsmErrorKind
  /-- The line of the source. -/
  line : Nat
deriving DecidableEq, Repr

/-- The nine mnemonics of R64. -/
inductive Mnemonic where
  | add | nor | lw | sw | beq | jalr | halt | noop
  /-- The directive `.fill`, the only one (R76). -/
  | fill
deriving DecidableEq, Repr

/-- The spellings of the mnemonics, case-sensitive (R64, decision D18). -/
def mnemonicNames : List (Token × Mnemonic) :=
  [(['a', 'd', 'd'], .add), (['n', 'o', 'r'], .nor), (['l', 'w'], .lw), (['s', 'w'], .sw),
   (['b', 'e', 'q'], .beq), (['j', 'a', 'l', 'r'], .jalr), (['h', 'a', 'l', 't'], .halt),
   (['n', 'o', 'o', 'p'], .noop), (['.', 'f', 'i', 'l', 'l'], .fill)]

/-- The mnemonic a token spells (R64). -/
def mnemonicOf (t : Token) : Option Mnemonic := mnemonicNames.lookup t

/-! ## Lines (R62, R63) -/

/-- The fields of a source line; a missing field is empty (R63). -/
structure SourceLine where
  label : Token
  opcode : Token
  operand0 : Token
  operand1 : Token
  operand2 : Token
deriving DecidableEq, Repr

/-- A label and the tokens that fill the other four fields in order. Tokens after the fifth field
are ignored (R63). -/
def SourceLine.ofTokens (label : Token) (ts : List Token) : SourceLine :=
  { label := label, opcode := ts.getD 0 [], operand0 := ts.getD 1 [],
    operand1 := ts.getD 2 [], operand2 := ts.getD 3 [] }

/-- The line begins with whitespace (R63 a). -/
def beginsWithSpace (line : List Char) : Bool :=
  match line with
  | [] => false
  | c :: _ => isSpace c

/-- The fields of a line by the cases (a), (b) and (c) of R63 (UNVERIFIED, the spec's reading,
90_conflicts.md C4, log 26). -/
def splitFields (line : List Char) : SourceLine :=
  match tokens line with
  | [] => SourceLine.ofTokens [] []
  | t :: rest =>
    if beginsWithSpace line || (mnemonicOf t).isSome then SourceLine.ofTokens [] (t :: rest)
    else SourceLine.ofTokens t rest

/-- The longest line, without its line feed (R62). -/
def maxLineLength : Nat := 999

/-- The first line that is too long, if any, where the first of `lines` is line `k` (R62, R77). -/
def firstLongLine (k : Nat) : List (List Char) → Option Nat
  | [] => none
  | l :: rest => if maxLineLength < l.length then some k else firstLongLine (k + 1) rest

/-! ## Pass 1: labels (R61, R65, R66) -/

/-- The labels bound so far, with their addresses. -/
abbrev Symbols := List (Token × Nat)

/-- A label that may be defined: 1 to 6 characters, the first no decimal digit (R66). -/
def validLabel (name : Token) : Bool :=
  match name with
  | [] => false
  | c :: rest => !isDigit c && decide (rest.length < 6)

/-- `define(name, address)` (R65, R66). -/
def Symbols.define (tab : Symbols) (name : Token) (address : Nat) : Except AsmErrorKind Symbols :=
  if !validLabel name then .error .invalidLabel
  else if (tab.lookup name).isSome then .error .duplicateLabel
  else .ok ((name, address) :: tab)

/-- `resolve(name)`: the bound address, or `UndefinedLabelError`; an empty name is never bound (R65). -/
def Symbols.resolve (tab : Symbols) (name : Token) : Except AsmErrorKind Nat :=
  if name = [] then .error .undefinedLabel
  else
    match tab.lookup name with
    | some address => .ok address
    | none => .error .undefinedLabel

/-- Pass 1 over the lines from address `address` on (R61, R65). An empty label binds nothing, but
its line takes its address. -/
def bindLabels (address : Nat) (tab : Symbols) : List SourceLine → Except AsmError Symbols
  | [] => .ok tab
  | l :: rest =>
    if l.label = [] then bindLabels (address + 1) tab rest
    else
      match tab.define l.label address with
      | .error e => .error { kind := e, line := address }
      | .ok tab' => bindLabels (address + 1) tab' rest

/-! ## Pass 2: operands and words (R67 to R74) -/

/-- A register operand: a decimal integer in `[0, 7]` (R67). -/
def registerOperand (t : Token) : Except AsmErrorKind RegIndex :=
  match parseDecimal t with
  | none => .error .registerRange
  | some v => if h : 0 ≤ v ∧ v ≤ 7 then .ok ⟨v.toNat, by omega⟩ else .error .registerRange

/-- What an offset or fill operand stands for. -/
inductive Resolved where
  /-- A decimal integer, taken as it is. -/
  | literal (value : Int)
  /-- A label, with its absolute address. -/
  | label (address : Nat)
deriving DecidableEq, Repr

/-- Resolve an offset or fill operand: a decimal integer first, else a label (R69). -/
def resolveOperand (tab : Symbols) (t : Token) : Except AsmErrorKind Resolved :=
  match parseDecimal t with
  | some v => .ok (.literal v)
  | none =>
    match tab.resolve t with
    | .ok address => .ok (.label address)
    | .error e => .error e

/-- The value of an operand of lw, sw and `.fill`: a label gives its absolute address (R69, R73). -/
def Resolved.absolute : Resolved → Int
  | .literal v => v
  | .label address => address

/-- The value of the operand of a beq at `current`: a label is made relative, a literal is not (R70). -/
def Resolved.relative (current : Nat) : Resolved → Int
  | .literal v => v
  | .label address => (address : Int) - current - 1

/-- Store an offset: in `[-32768, 32767]`, as `value & 0xFFFF` (R71). -/
def storeOffset (v : Int) : Except AsmErrorKind Field16 :=
  if -32768 ≤ v ∧ v ≤ 32767 then .ok (BitVec.ofInt 16 v) else .error .offsetRange

/-- The word of a `.fill` value: in `[-2^31, 2^31 - 1]` (R73, decision D19). -/
def fillWord (v : Int) : Except AsmErrorKind Word :=
  if -2 ^ 31 ≤ v ∧ v ≤ 2 ^ 31 - 1 then .ok (bits32 v) else .error .offsetRange

/-- The `fieldC` of a destination register (R72). -/
def destField (d : RegIndex) : Field16 := BitVec.ofNat 16 d.val

/-- The word of one line at `address` (R72). The opcode is checked first, then the operands left to
right, each completely (R77). Operands a mnemonic does not use are ignored (R74). -/
def encodeLine (tab : Symbols) (address : Nat) (l : SourceLine) : Except AsmErrorKind Word :=
  match mnemonicOf l.opcode with
  | none => .error .unknownOpcode
  | some .add => do
    let a ← registerOperand l.operand0
    let b ← registerOperand l.operand1
    let d ← registerOperand l.operand2
    return encode (.add a b (destField d))
  | some .nor => do
    let a ← registerOperand l.operand0
    let b ← registerOperand l.operand1
    let d ← registerOperand l.operand2
    return encode (.nor a b (destField d))
  | some .lw => do
    let a ← registerOperand l.operand0
    let b ← registerOperand l.operand1
    let r ← resolveOperand tab l.operand2
    let off ← storeOffset r.absolute
    return encode (.lw a b off)
  | some .sw => do
    let a ← registerOperand l.operand0
    let b ← registerOperand l.operand1
    let r ← resolveOperand tab l.operand2
    let off ← storeOffset r.absolute
    return encode (.sw a b off)
  | some .beq => do
    let a ← registerOperand l.operand0
    let b ← registerOperand l.operand1
    let r ← resolveOperand tab l.operand2
    let off ← storeOffset (r.relative address)
    return encode (.beq a b off)
  | some .jalr => do
    let a ← registerOperand l.operand0
    let b ← registerOperand l.operand1
    return encode (.jalr a b)
  | some .halt => .ok (encode .halt)
  | some .noop => .ok (encode .noop)
  | some .fill => do
    let r ← resolveOperand tab l.operand0
    fillWord r.absolute

/-- Pass 2 over the lines from address `address` on: one word a line, or the first error (R61, R77). -/
def encodeLines (tab : Symbols) (address : Nat) : List SourceLine → Except AsmError (List Word)
  | [] => .ok []
  | l :: rest =>
    match encodeLine tab address l with
    | .error e => .error { kind := e, line := address }
    | .ok w =>
      match encodeLines tab (address + 1) rest with
      | .error e => .error e
      | .ok ws => .ok (w :: ws)

/-! ## The assembler (R61, R75, R77) -/

/-- The words of a source program, or its first error in the order of R77: a line too long, then a
label of pass 1, then the lines of pass 2. -/
def assemble (source : List Char) : Except AsmError (List Word) :=
  match firstLongLine 0 (splitLines source) with
  | some k => .error { kind := .lineTooLong, line := k }
  | none =>
    match bindLabels 0 [] ((splitLines source).map splitFields) with
    | .error e => .error e
    | .ok tab => encodeLines tab 0 ((splitLines source).map splitFields)

/-- The machine-code text of some words: one decimal integer a line (R75). Every line ends with a line
feed, the last one too (DESIGN CHOICE, log 30). -/
def renderImage : List Word → List Char
  | [] => []
  | w :: ws => renderInt (s32 w) ++ '\n' :: renderImage ws

/-- What the assembler leaves: the output file, when there is one, and the exit code (R75). -/
structure AsmResult where
  output : Option (List Char)
  exitCode : Nat
deriving DecidableEq, Repr

/-- The assembler as a program: the output is written only when there is no error (R75, decision D24). -/
def runAssembler (source : List Char) : AsmResult :=
  match assemble source with
  | .ok ws => { output := some (renderImage ws), exitCode := 0 }
  | .error _ => { output := none, exitCode := 1 }

end Sys2Proof.Machine
end

