-- ==== Sys2Proof/Machine/Loader.lean ====
section
/-! DEFINITION. The loader and reset: `load(image)` of CORE's interface (10_state.md R28,
20_memory.md R44, 30_encoding.md R78, 70_reset_and_hazards.md R120). -/

namespace Sys2Proof.Machine

/-- The memory that holds the image's words from address `k` on and 0 elsewhere (R44, R120), in
canonical form. -/
def imageCells (k : Nat) : List Word → Memory
  | [] => []
  | w :: ws =>
    if w = Memory.unlisted then imageCells (k + 1) ws else (k, w) :: imageCells (k + 1) ws

/-- `load(image)`: refused when the image is longer than memory (R78), else the reset state with the
image in memory (R26, R120). Reset from any earlier state "is the same operation" (R120), so the
earlier state is no argument. -/
def State.load (c : Config) (image : List Word) : Option State :=
  if image.length ≤ c.memSize then
    some
      { config := c
        nLoaded := image.length
        pc := 0
        x := Vector.replicate 8 0
        mem := imageCells 0 image
        status := .running
        icount := 0
        fault := none }
  else none

/-- The word of one machine-code line: a decimal integer in `[-2^31, 2^31 - 1]` (R78, decision D22). -/
def readWord (line : List Char) : Option Word :=
  match parseDecimal line with
  | some v => if -2 ^ 31 ≤ v ∧ v ≤ 2 ^ 31 - 1 then some (bits32 v) else none
  | none => none

/-- The words of all lines, or none when a line is malformed (R78). -/
def readWords : List (List Char) → Option (List Word)
  | [] => some []
  | l :: rest =>
    match readWord l, readWords rest with
    | some w, some ws => some (w :: ws)
    | _, _ => none

/-- The image that a machine-code text holds (R78). -/
def readImage (text : List Char) : Option (List Word) := readWords (splitLines text)

/-- Load a machine-code text: none when the loader refuses it, and the core does not run (R78). -/
def State.loadText (c : Config) (text : List Char) : Option State :=
  match readImage text with
  | some image => State.load c image
  | none => none

end Sys2Proof.Machine
end

