-- ==== Sys2Proof/Machine/Observe.lean ====
section
/-! DEFINITION. What the host sees of CORE: the observation, the state dump, a run under fuel, and
the exit code (10_state.md R27, R28, R29; 60_exceptions.md R101, R117; 70_reset_and_hazards.md R126).
None of these changes the state. -/

namespace Sys2Proof.Machine

/-- `observe()` (R28). -/
structure Observation where
  pc : Int
  x : Vector Word 8
  mem : Memory
  nLoaded : Nat
  icount : Nat
  status : Status
  fault : Option FaultRecord
deriving DecidableEq, Repr

/-- `observe()` (R28). -/
def State.observe (s : State) : Observation :=
  { pc := s.pc, x := s.x, mem := s.mem, nLoaded := s.nLoaded, icount := s.icount,
    status := s.status, fault := s.fault }

/-- A state dump: `pc`, `mem[0 .. N_LOADED-1]` and `x[0..7]` (R27). -/
structure Dump where
  pc : Int
  memory : List Word
  registers : Vector Word 8
deriving DecidableEq, Repr

/-- The dump of a state (R27). -/
def State.dump (s : State) : Dump :=
  { pc := s.pc, memory := (List.range s.nLoaded).map s.mem.read, registers := s.x }

/-- The number of a fault code (R101). -/
def FaultCode.number : FaultCode → Nat
  | .pcOutOfRange => 1
  | .memAddrOutOfRange => 2
  | .regIndexOutOfRange => 3
  | .unrecognizedOpcode => 4

/-- The name of a fault code (R101). -/
def FaultCode.name : FaultCode → String
  | .pcOutOfRange => "PC_OUT_OF_RANGE"
  | .memAddrOutOfRange => "MEM_ADDR_OUT_OF_RANGE"
  | .regIndexOutOfRange => "REG_INDEX_OUT_OF_RANGE"
  | .unrecognizedOpcode => "UNRECOGNIZED_OPCODE"

/-- The final summary of a run that has ended in `s`: the instructions executed (R19, R27). -/
def State.finalSummary (s : State) : Nat := s.icount

/-- The exit code of a run that has ended in `s`; a run that still goes on has none (R117). -/
def State.exitCode (s : State) : Option Nat :=
  match s.status with
  | .running => none
  | .halted => some 0
  | .faulted => some 1

/-- The state after at most `fuel` steps: steps are run until `status` is not Running (R28, R126). -/
def runFor : Nat → State → State
  | 0, s => s
  | fuel + 1, s =>
    match step s with
    | .next t => runFor fuel t
    | .fault _ => s
    | .refused _ => s

/-- The dumps of a run of at most `fuel` steps: one "before executing each instruction" and one
"after program termination" (R27). A step that fetches no word executes no instruction (DEDUCED for
a run that ends in a fault, log 27). -/
def dumpsFor : Nat → State → List Dump
  | 0, s => if s.status = .running then [] else [s.dump]
  | fuel + 1, s =>
    match step s with
    | .next t => if s.fetchedWord.isSome then s.dump :: dumpsFor fuel t else dumpsFor fuel t
    | .fault _ => [s.dump]
    | .refused _ => [s.dump]

/-- The simulator's exit code on a machine-code text, for a run of at most `fuel` steps (R78, R117). -/
def simulatorExitCode (c : Config) (text : List Char) (fuel : Nat) : Option Nat :=
  match State.loadText c text with
  | none => some 1
  | some s => (runFor fuel s).exitCode

end Sys2Proof.Machine
end

