-- ==== Sys2Proof/Safety.lean ====
section
/-! DEFINITION. The terms that claims are made in: bits of a word, a state about to run a word, what a
step leaves alone, the invariant that every step keeps, and runs. -/

namespace Sys2Proof.Machine

/-- `w[hi:lo]` as an unsigned number (00_scope.md R4), by arithmetic and not by the decoder. -/
def bits (w : Word) (hi lo : Nat) : Nat := w.toNat / 2 ^ lo % 2 ^ (hi + 1 - lo)

/-- The register that a 3-bit field of the word names (30_encoding.md R46). -/
def regField (w : Word) (hi lo : Nat) : RegIndex := Fin.ofNat 8 (bits w hi lo)

/-- The signed offset in the low half of the word: `f - 65536` when bit 15 is set, and `f` otherwise
(R6, R46). -/
def offsetField (w : Word) : Int :=
  if bits w 15 15 = 1 then (bits w 15 0 : Int) - 65536 else bits w 15 0

/-- The next step fetches the word `w`: status Running, `pc` in memory, and `w` there (R24). -/
def State.AboutToRun (s : State) (w : Word) : Prop :=
  s.status = .running ∧ 0 ≤ s.pc ∧ s.pc < s.config.memSize ∧ s.mem.read s.pc.toNat = w

/-- The state after raising a fault in a step that ran the word `w`, or that fetched none: nothing
but status and the record differs from `s` (60_exceptions.md R100, R106, 10_state.md R21). -/
def State.faultedWith (s : State) (code : FaultCode) (word : Option Word) (addr : Option Int) : State :=
  { s with
    status := .faulted
    fault := some { code := code, pc := s.pc, word := word, addr := addr } }

/-! ## What a step leaves alone -/

/-- The launch values of the run are unchanged: no instruction writes them (R10). -/
def SameLaunch (s t : State) : Prop := t.config = s.config ∧ t.nLoaded = s.nLoaded

/-- Every register reads as before. -/
def SameRegisters (s t : State) : Prop := ∀ r : RegIndex, t.readReg r = s.readReg r

/-- Every register but `d` reads as before. -/
def SameRegistersBut (d : RegIndex) (s t : State) : Prop :=
  ∀ r : RegIndex, r ≠ d → t.readReg r = s.readReg r

/-- Every word of memory reads as before. -/
def SameMemory (s t : State) : Prop := ∀ a : Nat, t.mem.read a = s.mem.read a

/-- Every word of memory outside address `ea` reads as before. -/
def SameMemoryBut (ea : Nat) (s t : State) : Prop :=
  ∀ a : Nat, a ≠ ea → t.mem.read a = s.mem.read a

/-- The run goes on as it was: status and fault record are unchanged. -/
def SameRunState (s t : State) : Prop := t.status = s.status ∧ t.fault = s.fault

/-- The instruction was counted, once (R19). -/
def CountedOnce (s t : State) : Prop := t.icount = s.icount + 1

/-- What every instruction but halt leaves alone when it raises no fault, beside registers and memory. -/
def OtherwiseUnchanged (s t : State) : Prop := SameLaunch s t ∧ SameRunState s t ∧ CountedOnce s t

/-- The register that `i` writes when it raises no fault (10_state.md R12). -/
def Writes (i : Instr) (r : RegIndex) : Prop :=
  match i with
  | .add _ _ fieldC => fieldC.toNat = r.val
  | .nor _ _ fieldC => fieldC.toNat = r.val
  | .lw _ regB _ => r = regB
  | .sw _ _ _ => False
  | .beq _ _ _ => False
  | .jalr _ regB => r = regB
  | .halt => False
  | .noop => False

/-! ## When an instruction faults (60_exceptions.md R103, R104) -/

/-- The operands of `i` in `s` raise no fault: the destination of add and nor is a register, the
effective address of lw and sw is in memory. -/
def OperandsFit (i : Instr) (s : State) : Prop :=
  match i with
  | .add _ _ fieldC => fieldC.toNat ≤ 7
  | .nor _ _ fieldC => fieldC.toNat ≤ 7
  | .lw regA _ offset => s.inMemory (effectiveAddress (s.readReg regA) offset) = true
  | .sw regA _ offset => s.inMemory (effectiveAddress (s.readReg regA) offset) = true
  | .beq _ _ _ => True
  | .jalr _ _ => True
  | .halt => True
  | .noop => True

/-- The record `r` says rightly why the core, stopped in state `s`, faulted: a faulting step changes
no pc, register or memory word, so the cause is still there (R101, R106). Code 4 explains nothing
(R105). -/
def State.ExplainedBy (s : State) (r : FaultRecord) : Prop :=
  r.pc = s.pc ∧ r.word = s.fetchedWord ∧
  match r.code with
  | .pcOutOfRange => s.inMemory s.pc = false ∧ r.addr = none
  | .memAddrOutOfRange =>
    ∃ (w : Word) (regA regB : RegIndex) (offset : Field16),
      s.fetchedWord = some w ∧ (decode w = .lw regA regB offset ∨ decode w = .sw regA regB offset) ∧
      r.addr = some (effectiveAddress (s.readReg regA) offset) ∧
      s.inMemory (effectiveAddress (s.readReg regA) offset) = false
  | .regIndexOutOfRange =>
    ∃ (w : Word) (regA regB : RegIndex) (fieldC : Field16),
      s.fetchedWord = some w ∧
      (decode w = .add regA regB fieldC ∨ decode w = .nor regA regB fieldC) ∧
      r.addr = some (fieldC.toNat : Int) ∧ 7 < fieldC.toNat
  | .unrecognizedOpcode => False

/-! ## The invariant -/

/-- What holds after every load and after every step. Its parts that are no rule of the spec's are marked
by their log. -/
structure State.Inv (s : State) : Prop where
  /-- `1 <= MEM_SIZE <= 2^31 - 1` (00_scope.md R3). -/
  configLegal : s.config.Legal
  /-- `0 <= N_LOADED <= MEM_SIZE` (R3). -/
  loadedFits : s.nLoaded ≤ s.config.memSize
  /-- The memory is in canonical form (DEDUCED, log 2). -/
  memoryWf : s.mem.wf
  /-- No word is listed outside memory (20_memory.md R30). -/
  memoryFits : ∀ c ∈ s.mem, c.1 < s.config.memSize
  /-- The pc is at or above `-2^31` (10_state.md R14). -/
  pcLow : -2 ^ 31 ≤ s.pc
  /-- The pc is a register's value, or at most the farthest branch past the end of memory (R87, R90;
  DEDUCED, log 9). -/
  pcHigh : s.pc ≤ 2 ^ 31 - 1 ∨ s.pc ≤ s.config.memSize + 32767
  /-- There is no record unless the status is Faulted (R21). -/
  noRecord : s.status ≠ .faulted → s.fault = none
  /-- A faulted core holds a record that says why (R21, R101; log 7, log 8). -/
  record : s.status = .faulted → ∃ r, s.fault = some r ∧ s.ExplainedBy r
  /-- A halted core stands at a halt (R95). -/
  haltedAt : s.status = .halted → ∃ w, s.fetchedWord = some w ∧ decode w = .halt

/-! ## Runs -/

/-- `t` is reached from `s` by steps. -/
inductive Reaches : State → State → Prop where
  | refl (s : State) : Reaches s s
  | tail (s t u : State) (before : Reaches s t) (last : step t = .next u) : Reaches s u

/-- A run that never ends: no number of steps stops the core (10_state.md R29, 70_reset_and_hazards.md
R126). -/
def Hangs (s : State) : Prop := ∀ n : Nat, (runFor n s).status = .running

/-! ## What a line of source text says (30_encoding.md R67 to R73) -/

/-- The operand is the number of the register `r`, as a decimal integer (R67, R68). -/
def IsRegister (t : Token) (r : RegIndex) : Prop := parseDecimal t = some (r.val : Int)

/-- The operand is a label, and line `k` of the program is the one it labels (R65, R69). -/
def IsLabelOf (lines : List SourceLine) (t : Token) (k : Nat) : Prop :=
  t ≠ [] ∧ parseDecimal t = none ∧ ∃ l, lines[k]? = some l ∧ l.label = t

/-- The operand of lw, sw or `.fill` has the value `v`: a literal, or a label's address (R69). -/
def HasValue (lines : List SourceLine) (t : Token) (v : Int) : Prop :=
  parseDecimal t = some v ∨ ∃ k : Nat, IsLabelOf lines t k ∧ v = k

/-- The operand of a beq on line `here` has the displacement `v`: a literal as it is, or a label's
address less the address after the beq (R70). -/
def HasDisplacement (lines : List SourceLine) (here : Nat) (t : Token) (v : Int) : Prop :=
  parseDecimal t = some v ∨ ∃ k : Nat, IsLabelOf lines t k ∧ v = k - here - 1

/-- The word `w` is what line `l`, the line `here` of the program, says (R72, R73, R79): decoding it
gives back the mnemonic and every operand. -/
def SaysLine (lines : List SourceLine) (here : Nat) (l : SourceLine) (w : Word) : Prop :=
  match mnemonicOf l.opcode with
  | some .add => ∃ (a b d : RegIndex) (c : Field16), IsRegister l.operand0 a ∧
      IsRegister l.operand1 b ∧ IsRegister l.operand2 d ∧ c.toNat = d.val ∧ decode w = .add a b c
  | some .nor => ∃ (a b d : RegIndex) (c : Field16), IsRegister l.operand0 a ∧
      IsRegister l.operand1 b ∧ IsRegister l.operand2 d ∧ c.toNat = d.val ∧ decode w = .nor a b c
  | some .lw => ∃ (a b : RegIndex) (offset : Field16), IsRegister l.operand0 a ∧
      IsRegister l.operand1 b ∧ HasValue lines l.operand2 (sext16 offset) ∧
      decode w = .lw a b offset
  | some .sw => ∃ (a b : RegIndex) (offset : Field16), IsRegister l.operand0 a ∧
      IsRegister l.operand1 b ∧ HasValue lines l.operand2 (sext16 offset) ∧
      decode w = .sw a b offset
  | some .beq => ∃ (a b : RegIndex) (offset : Field16), IsRegister l.operand0 a ∧
      IsRegister l.operand1 b ∧ HasDisplacement lines here l.operand2 (sext16 offset) ∧
      decode w = .beq a b offset
  | some .jalr => ∃ (a b : RegIndex), IsRegister l.operand0 a ∧ IsRegister l.operand1 b ∧
      decode w = .jalr a b
  | some .halt => decode w = .halt
  | some .noop => decode w = .noop
  | some .fill => HasValue lines l.operand0 (s32 w)
  | none => False

end Sys2Proof.Machine
end

