-- ==== Sys2Proof/Certificates/Slice0/Obligations.lean ====
section
/-! DEFINITION. The statements for the provers. Each is for every state and every memory size; where
a rule of the spec carries a decision mark of its own, the docstring names the decision and the log.
In all of them, raising a fault is a next state with status Faulted, not a stop: the model's form, read
from R100 (log 5). A statement that gives the whole faulted state says with it that the faulting step
is not counted, the spec's decision D11 (log 17), and that the record's word is the one at the pc
(log 7). -/

open Sys2Proof Sys2Proof.Machine

/-! ## Encoding (30_encoding.md) -/

/-- Decode and encode agree on every instruction, the reserved encodings of add and nor (R56) among
them, with every operand at every value. -/
def Obligations.DecodeOfEncodeIsTheInstruction : Prop :=
  ∀ i : Instr, decode (encode i) = i

/-- The other direction: encoding what a word decodes to gives the word with the unused bits cleared
and no other bit changed. Which bits are unused is R55; that they are ignored is the spec's decision
D9 (log 11). -/
def Obligations.EncodeOfDecodeClearsTheUnusedBits : Prop :=
  ∀ w : Word,
    encode (decode w) =
      w &&& (if bits w 24 22 ≤ 4 then 0x01FFFFFF else if bits w 24 22 = 5 then 0x01FF0000
        else 0x01C00000)

/-- The decoder extracts the four fields of every word (R51), and each opcode selects its instruction
(R54). That a word with ones in unused bits (R55) selects it too is the spec's decision D9 (log 11). -/
def Obligations.DecoderReadsTheFieldsOfEveryWord : Prop :=
  ∀ w : Word,
    fieldsOf w =
      { op := Fin.ofNat 8 (bits w 24 22), fieldA := regField w 21 19, fieldB := regField w 18 16,
        fieldC := BitVec.ofNat 16 (bits w 15 0) } ∧
    (bits w 24 22 = 0 →
      decode w = .add (regField w 21 19) (regField w 18 16) (BitVec.ofNat 16 (bits w 15 0))) ∧
    (bits w 24 22 = 1 →
      decode w = .nor (regField w 21 19) (regField w 18 16) (BitVec.ofNat 16 (bits w 15 0))) ∧
    (bits w 24 22 = 2 →
      decode w = .lw (regField w 21 19) (regField w 18 16) (BitVec.ofNat 16 (bits w 15 0))) ∧
    (bits w 24 22 = 3 →
      decode w = .sw (regField w 21 19) (regField w 18 16) (BitVec.ofNat 16 (bits w 15 0))) ∧
    (bits w 24 22 = 4 →
      decode w = .beq (regField w 21 19) (regField w 18 16) (BitVec.ofNat 16 (bits w 15 0))) ∧
    (bits w 24 22 = 5 → decode w = .jalr (regField w 21 19) (regField w 18 16)) ∧
    (bits w 24 22 = 6 → decode w = .halt) ∧
    (bits w 24 22 = 7 → decode w = .noop) ∧
    bits w 24 22 ≤ 7

/-- R55: two words that differ in unused bits only are the same instruction (the spec's decision D9,
log 11). -/
def Obligations.UnusedBitsNeverChangeTheInstruction : Prop :=
  ∀ v w : Word,
    bits v 24 22 = bits w 24 22 →
    (bits v 24 22 ≤ 5 → bits v 21 16 = bits w 21 16) →
    (bits v 24 22 ≤ 4 → bits v 15 0 = bits w 15 0) →
    decode v = decode w

/-- One word of every instruction, from the examples of the spec, decodes to what it stands for. -/
def Obligations.ExampleWordsDecodeAsTheSpecSays : Prop :=
  decode 0x00010002 = .add 0 1 2 ∧ decode 0x00520003 = .nor 2 2 3 ∧
  decode 0x00810007 = .lw 0 1 7 ∧ decode 0x00C1FFFB = .sw 0 1 0xFFFB ∧
  decode 0x0100FFFD = .beq 0 0 0xFFFD ∧ decode 0x01670000 = .jalr 4 7 ∧
  decode 0x01800000 = .halt ∧ decode 0xFF800000 = .halt ∧ decode 0xFFFFFFFF = .noop ∧
  decode 0x00000008 = .add 0 0 8

/-- R6: sign extension of a 16-bit field, with its range. -/
def Obligations.SignExtensionFollowsBitFifteen : Prop :=
  ∀ f : Field16,
    (f.getLsbD 15 = true → sext16 f = (f.toNat : Int) - 65536) ∧
    (f.getLsbD 15 = false → sext16 f = f.toNat) ∧
    -32768 ≤ sext16 f ∧ sext16 f ≤ 32767 ∧ (sext16 f - f.toNat) % 65536 = 0

/-! ## The step (10_state.md R24) -/

/-- A step runs the instruction that the word at the pc decodes to, and adds nothing around it. -/
def Obligations.StepRunsTheDecodedInstruction : Prop :=
  ∀ (s : State) (w : Word), s.AboutToRun w → step s = exec (decode w) s

/-- R102: a step from a pc outside memory raises PC_OUT_OF_RANGE and fetches nothing, and no other
step raises it. The bound is the size of memory by the spec's decision D6 (log 14); the record holds no
address (log 8). -/
def Obligations.FetchOutsideMemoryFaults : Prop :=
  ∀ s : State, s.status = .running →
    ((s.pc < 0 ∨ (s.config.memSize : Int) ≤ s.pc) →
      step s = .next (s.faultedWith .pcOutOfRange none none)) ∧
    (∀ (t : State) (r : FaultRecord), step s = .next t → s.fault = none → t.fault = some r →
      r.code = .pcOutOfRange → s.pc < 0 ∨ (s.config.memSize : Int) ≤ s.pc)

/-- R18, R110: a core that is Halted or Faulted takes no step; that `step` answers the host's fault
there is the model's form (log 6). -/
def Obligations.StoppedCoreTakesNoStep : Prop :=
  ∀ s : State, s.status ≠ .running →
    (∀ t : State, step s ≠ .next t) ∧ (∀ n : Nat, runFor n s = s)

/-- A running core always takes its step: no word and no operand stops the model. -/
def Obligations.EveryRunningStepAnswersANextState : Prop :=
  ∀ s : State, s.status = .running → ∃ t : State, step s = .next t ∧ SameLaunch s t

/-- Every instruction completes, in every state, on every operand that raises no fault: `exec` answers
a next state that is counted once, with the fault record as it was, and Halted for halt alone. -/
def Obligations.EveryInstructionCompletesOnFittingOperands : Prop :=
  ∀ (i : Instr) (s : State), OperandsFit i s →
    ∃ t : State, exec i s = .next t ∧ CountedOnce s t ∧ SameLaunch s t ∧ t.fault = s.fault ∧
      (i = .halt → t.status = .halted) ∧ (i ≠ .halt → t.status = s.status)

/-! ## The instructions, from their words (40 to 43) -/

/-- R80: add. The sum wraps by the spec's decision D4 (log 13); a destination above 7 faults by its
decision D8 (log 16). -/
def Obligations.AddWordAddsAndWraps : Prop :=
  ∀ (s : State) (w : Word), s.AboutToRun w → bits w 24 22 = 0 →
    (7 < bits w 15 0 →
      step s = .next (s.faultedWith .regIndexOutOfRange (some w) (some (bits w 15 0 : Int)))) ∧
    (bits w 15 0 ≤ 7 →
      ∃ t : State, step s = .next t ∧ exec (decode w) s = .next t ∧
        ((t.readReg (regField w 2 0)).toInt -
          ((s.readReg (regField w 21 19)).toInt + (s.readReg (regField w 18 16)).toInt)) % 2 ^ 32 = 0 ∧
        t.pc = s.pc + 1 ∧
        SameRegistersBut (regField w 2 0) s t ∧ SameMemory s t ∧ OtherwiseUnchanged s t)

/-- R81: nor, bit by bit. A destination above 7 faults by the spec's decision D8 (log 16). -/
def Obligations.NorWordComplementsTheOr : Prop :=
  ∀ (s : State) (w : Word), s.AboutToRun w → bits w 24 22 = 1 →
    (7 < bits w 15 0 →
      step s = .next (s.faultedWith .regIndexOutOfRange (some w) (some (bits w 15 0 : Int)))) ∧
    (bits w 15 0 ≤ 7 →
      ∃ t : State, step s = .next t ∧ exec (decode w) s = .next t ∧
        (∀ k : Nat, k < 32 →
          (t.readReg (regField w 2 0)).getLsbD k =
            !((s.readReg (regField w 21 19)).getLsbD k || (s.readReg (regField w 18 16)).getLsbD k)) ∧
        t.pc = s.pc + 1 ∧
        SameRegistersBut (regField w 2 0) s t ∧ SameMemory s t ∧ OtherwiseUnchanged s t)

/-- R84, R85: lw. The address is exact and faults outside memory by the spec's decision D5 (log 15). -/
def Obligations.LwWordLoadsFromTheExactAddress : Prop :=
  ∀ (s : State) (w : Word) (ea : Int), s.AboutToRun w → bits w 24 22 = 2 →
    ea = (s.readReg (regField w 21 19)).toInt + offsetField w →
    ((ea < 0 ∨ (s.config.memSize : Int) ≤ ea) →
      step s = .next (s.faultedWith .memAddrOutOfRange (some w) (some ea))) ∧
    ((0 ≤ ea ∧ ea < s.config.memSize) →
      ∃ t : State, step s = .next t ∧ exec (decode w) s = .next t ∧
        t.readReg (regField w 18 16) = s.mem.read ea.toNat ∧ t.pc = s.pc + 1 ∧
        SameRegistersBut (regField w 18 16) s t ∧ SameMemory s t ∧ OtherwiseUnchanged s t)

/-- R84, R86: sw. The address is exact and faults outside memory by the spec's decision D5 (log 15).
The canonical form of memory, which every step keeps, is needed for the read back alone. -/
def Obligations.SwWordStoresToTheExactAddress : Prop :=
  ∀ (s : State) (w : Word) (ea : Int), s.AboutToRun w → s.mem.wf → bits w 24 22 = 3 →
    ea = (s.readReg (regField w 21 19)).toInt + offsetField w →
    ((ea < 0 ∨ (s.config.memSize : Int) ≤ ea) →
      step s = .next (s.faultedWith .memAddrOutOfRange (some w) (some ea))) ∧
    ((0 ≤ ea ∧ ea < s.config.memSize) →
      ∃ t : State, step s = .next t ∧ exec (decode w) s = .next t ∧
        t.mem.read ea.toNat = s.readReg (regField w 18 16) ∧ t.pc = s.pc + 1 ∧
        SameMemoryBut ea.toNat s t ∧ SameRegisters s t ∧ OtherwiseUnchanged s t)

/-- R87: beq goes to the exact `pc + 1 + offset` when all 32 bits agree, else to `pc + 1`, and changes
nothing else. A new pc outside memory faults in the next step, not in the beq. The last clause gives that
step's whole faulted state: no address in the record (DEDUCED, log 8), the bound MEM_SIZE by the spec's
decision D6 (log 14), and a step that is not counted by its decision D11 (log 17). -/
def Obligations.BeqWordBranchesOnEquality : Prop :=
  ∀ (s : State) (w : Word), s.AboutToRun w → bits w 24 22 = 4 →
    ∃ t : State, step s = .next t ∧ exec (decode w) s = .next t ∧
      (s.readReg (regField w 21 19) = s.readReg (regField w 18 16) →
        t.pc = s.pc + 1 + offsetField w ∧ s.pc - 32767 ≤ t.pc ∧ t.pc ≤ s.pc + 32768) ∧
      (s.readReg (regField w 21 19) ≠ s.readReg (regField w 18 16) → t.pc = s.pc + 1) ∧
      SameRegisters s t ∧ SameMemory s t ∧ OtherwiseUnchanged s t ∧
      (t.pc < 0 ∨ (s.config.memSize : Int) ≤ t.pc →
        step t = .next (t.faultedWith .pcOutOfRange none none))

/-- R90: jalr links first and then jumps to the target itself, so with `regA = regB` it goes to
`pc + 1`. That no increment follows is the spec's reading (C1, decision D7, log 12). The memory size
is a legal one, so that the link is the number `pc + 1` (log 10). -/
def Obligations.JalrWordLinksThenJumps : Prop :=
  ∀ (s : State) (w : Word), s.AboutToRun w → s.config.Legal → bits w 24 22 = 5 →
    ∃ t : State, step s = .next t ∧ exec (decode w) s = .next t ∧
      (t.readReg (regField w 18 16)).toInt = s.pc + 1 ∧
      (regField w 21 19 = regField w 18 16 → t.pc = s.pc + 1) ∧
      (regField w 21 19 ≠ regField w 18 16 → t.pc = (s.readReg (regField w 21 19)).toInt) ∧
      SameRegistersBut (regField w 18 16) s t ∧ SameMemory s t ∧ OtherwiseUnchanged s t

/-- R95: halt commits, is counted, sets status Halted and leaves the pc at its own address; then the
core takes no step. -/
def Obligations.HaltWordStopsTheCore : Prop :=
  ∀ (s : State) (w : Word), s.AboutToRun w → bits w 24 22 = 6 →
    ∃ t : State, step s = .next t ∧ exec (decode w) s = .next t ∧
      t = { s with status := .halted, icount := s.icount + 1 } ∧ ∀ u : State, step t ≠ .next u

/-- R96: noop advances the pc, is counted, and changes nothing else. After a noop at the last word the
next step raises PC_OUT_OF_RANGE. The last clause gives that step's whole faulted state: no address in
the record (DEDUCED, log 8), the bound MEM_SIZE by the spec's decision D6 (log 14), and a step that is
not counted by its decision D11 (log 17). -/
def Obligations.NoopWordOnlyAdvances : Prop :=
  ∀ (s : State) (w : Word), s.AboutToRun w → bits w 24 22 = 7 →
    ∃ t : State, step s = .next t ∧ exec (decode w) s = .next t ∧
      t = { s with pc := s.pc + 1, icount := s.icount + 1 } ∧
      (s.pc + 1 = s.config.memSize → step t = .next (t.faultedWith .pcOutOfRange none none))

/-! ## Faults (60_exceptions.md) -/

/-- R104: add and nor raise REG_INDEX_OUT_OF_RANGE when `fieldC` is above 7, with the record of R101,
and no other instruction raises it (the spec's decision D8, log 16). The record's word is the word
at the pc (log 7). -/
def Obligations.RegisterIndexFaultExactlyAboveSeven : Prop :=
  ∀ s : State,
    (∀ (regA regB : RegIndex) (fieldC : Field16), 7 < fieldC.toNat →
      exec (.add regA regB fieldC) s =
        .next (s.faultedWith .regIndexOutOfRange s.fetchedWord (some (fieldC.toNat : Int))) ∧
      exec (.nor regA regB fieldC) s =
        .next (s.faultedWith .regIndexOutOfRange s.fetchedWord (some (fieldC.toNat : Int)))) ∧
    (∀ (i : Instr) (t : State) (r : FaultRecord), exec i s = .next t → s.fault = none →
      t.fault = some r → r.code = .regIndexOutOfRange →
      ∃ (regA regB : RegIndex) (fieldC : Field16), 7 < fieldC.toNat ∧
        (i = .add regA regB fieldC ∨ i = .nor regA regB fieldC))

/-- R103: lw and sw raise MEM_ADDR_OUT_OF_RANGE when the effective address is outside memory, with the
record of R101, and no other instruction raises it (the spec's decision D5, log 15). -/
def Obligations.MemoryFaultExactlyOutsideMemory : Prop :=
  ∀ s : State,
    (∀ (regA regB : RegIndex) (offset : Field16) (ea : Int),
      ea = (s.readReg regA).toInt + offset.toInt → (ea < 0 ∨ (s.config.memSize : Int) ≤ ea) →
      exec (.lw regA regB offset) s =
        .next (s.faultedWith .memAddrOutOfRange s.fetchedWord (some ea)) ∧
      exec (.sw regA regB offset) s =
        .next (s.faultedWith .memAddrOutOfRange s.fetchedWord (some ea))) ∧
    (∀ (i : Instr) (t : State) (r : FaultRecord), exec i s = .next t → s.fault = none →
      t.fault = some r → r.code = .memAddrOutOfRange →
      ∃ (regA regB : RegIndex) (offset : Field16),
        (i = .lw regA regB offset ∨ i = .sw regA regB offset) ∧
        s.inMemory (effectiveAddress (s.readReg regA) offset) = false)

/-- R107: a step ends in a fault exactly when its fetch is outside memory or the operands of the
fetched instruction do not fit; nothing else can fault. -/
def Obligations.StepFaultsExactlyWhenACheckFails : Prop :=
  ∀ s t : State, step s = .next t →
    (t.status = .faulted ↔
      ¬ (0 ≤ s.pc ∧ s.pc < s.config.memSize) ∨
      ∃ w : Word, s.AboutToRun w ∧ ¬ OperandsFit (decode w) s)

/-- R100, R106: a faulting step changes no register, no memory word, no pc and no icount, its record holds
the pc, and nothing happens after it (the spec's decision D11, log 17). -/
def Obligations.FaultsArePreciseAndFinal : Prop :=
  ∀ s t : State, step s = .next t → t.status = .faulted →
    SameRegisters s t ∧ t.mem = s.mem ∧ t.pc = s.pc ∧ t.icount = s.icount ∧ SameLaunch s t ∧
    (∃ r : FaultRecord, t.fault = some r ∧ r.pc = s.pc) ∧ ∀ u : State, step t ≠ .next u

/-- R105: no step raises UNRECOGNIZED_OPCODE. -/
def Obligations.UnrecognizedOpcodeIsNeverRaised : Prop :=
  ∀ (s t : State) (r : FaultRecord), step s = .next t → s.fault = none → t.fault = some r →
    r.code ≠ .unrecognizedOpcode

/-! ## The whole machine -/

/-- R12, R11: an instruction changes no register but the one that R12's table says it writes. -/
def Obligations.OnlyTheNamedRegisterChanges : Prop :=
  ∀ (i : Instr) (s t : State) (r : RegIndex), exec i s = .next t →
    t.readReg r ≠ s.readReg r → Writes i r

/-- R31, R33: an instruction that changes a word of memory is a sw, and the word is the one at its
effective address. Every other word, and for every other instruction every word, reads as before. -/
def Obligations.OnlyTheStoredWordChanges : Prop :=
  ∀ (i : Instr) (s t : State), exec i s = .next t →
    (∀ (regA regB : RegIndex) (offset : Field16) (a : Nat), i = .sw regA regB offset →
      (a : Int) ≠ effectiveAddress (s.readReg regA) offset → t.mem.read a = s.mem.read a) ∧
    ((∀ (regA regB : RegIndex) (offset : Field16), i ≠ .sw regA regB offset) → t.mem = s.mem)

/-- R29, R95: a step halts the core exactly when it runs a halt. -/
def Obligations.OnlyHaltHalts : Prop :=
  ∀ s t : State, step s = .next t →
    (t.status = .halted ↔ ∃ w : Word, s.AboutToRun w ∧ bits w 24 22 = 6)

/-- R18: a Running core runs the instruction at the pc, becomes Halted exactly by a halt and Faulted
exactly by raising a fault; Halted and Faulted have no way out; no instruction reads the status or makes
a core Running, and a load does. -/
def Obligations.StatusMovesOnlyFromRunning : Prop :=
  (∀ s : State,
    (∀ w : Word, s.AboutToRun w → step s = exec (decode w) s) ∧
    (∀ t : State, step s = .next t →
      (t.status = .halted ↔ ∃ w : Word, s.AboutToRun w ∧ decode w = .halt) ∧
      (s.fault = none → (t.status = .faulted ↔ t.fault ≠ none))) ∧
    (s.status ≠ .running → ∀ t : State, step s ≠ .next t) ∧
    (∀ (i : Instr) (t : State), exec i s = .next t →
      (t.status = .running → s.status = .running) ∧
      ∀ other : Status, ∃ u : State,
        exec i { s with status := other } = .next u ∧ { u with status := t.status } = t)) ∧
  ∀ (c : Config) (image : List Word) (s : State), State.load c image = some s → s.status = .running

/-- R19, R125: `icount` counts the steps of a run. A step that faults is not counted, by the spec's
decision D11 (log 17). -/
def Obligations.RunCountsItsSteps : Prop :=
  ∀ (n : Nat) (s t : State), core.run n s = .next t →
    (t.status ≠ .faulted → t.icount = s.icount + n) ∧
    (t.status = .faulted → s.status ≠ .faulted → t.icount + 1 = s.icount + n)

/-- R87, R29, R126: a beq of a register with itself and offset -1 branches to itself. The run is a hang:
after any number of steps the core still runs, at the same pc, with every step counted. -/
def Obligations.BranchToItselfHangs : Prop :=
  ∀ (s : State) (w : Word), s.AboutToRun w → bits w 24 22 = 4 →
    regField w 21 19 = regField w 18 16 → bits w 15 0 = 65535 →
    Hangs s ∧ ∀ n : Nat, runFor n s = { s with icount := s.icount + n }

/-- R10, R19: no instruction reads `icount` or `N_LOADED`. Two runs that differ in them alone take the
same step, and differ in them alone after it. -/
def Obligations.CounterAndImageLengthAreUnobservable : Prop :=
  ∀ (s t : State) (count loaded : Nat), step s = .next t →
    step { s with icount := count, nLoaded := loaded } =
      .next { t with icount := count + (t.icount - s.icount), nLoaded := loaded }

/-- R42, R124: a store to the next address is the next instruction. -/
def Obligations.StoreToTheNextAddressIsExecuted : Prop :=
  ∀ (s : State) (w : Word), s.AboutToRun w → s.mem.wf → bits w 24 22 = 3 →
    (s.readReg (regField w 21 19)).toInt + offsetField w = s.pc + 1 →
    s.pc + 1 < s.config.memSize →
    ∃ t : State, step s = .next t ∧ step t = exec (decode (s.readReg (regField w 18 16))) t

/-- R39 (b): a lw returns the value of the sw to the same address before it. -/
def Obligations.LoadSeesTheStoreBeforeIt : Prop :=
  ∀ (s : State) (a b c d : RegIndex) (off off' : Field16), s.mem.wf →
    OperandsFit (.sw a b off) s →
    effectiveAddress (s.readReg c) off' = effectiveAddress (s.readReg a) off →
    ∃ t u : State, exec (.sw a b off) s = .next t ∧ exec (.lw c d off') t = .next u ∧
      u.readReg d = s.readReg b

/-- R90: a call links and a jalr through the link comes back to the instruction after the call,
whatever ran between them, if the link register still holds the link. -/
def Obligations.CallAndReturnComeBack : Prop :=
  ∀ (s : State) (target link spare : RegIndex), s.config.Legal → 0 ≤ s.pc →
    s.pc < s.config.memSize → spare ≠ link →
    ∃ t : State, exec (.jalr target link) s = .next t ∧
      ∀ u : State, u.readReg link = t.readReg link →
        ∃ v : State, exec (.jalr link spare) u = .next v ∧ v.pc = s.pc + 1

/-- R81: with add, nor gives subtraction, `a - b = a + nor(b,b) + 1`. -/
def Obligations.AddAndNorSubtract : Prop :=
  ∀ a b : Word, addWord (addWord a (norWord b b)) 1 = a - b

/-- The canonical form of memory, the model's own (log 2, log 3), is canonical: two memories in it that
read alike are equal. -/
def Obligations.MemoriesThatReadAlikeAreEqual : Prop :=
  ∀ m m' : Memory, m.wf → m'.wf → (∀ a : Nat, m.read a = m'.read a) → m = m'

/-! ## The invariant

`State.Inv` rests on more than rules of the spec: the canonical form of memory is the model's (DEDUCED,
log 2; an unlisted word reads 0 by the spec's decision D2, log 3), the upper bound of the pc is DEDUCED
from R3 and R87 and wider than R14's (log 9), and what a record holds rests on log 7 and log 8 (DEDUCED)
and on the spec's decisions D5, D6, D8 and D11 (log 14 to 17). -/

/-- The reset state has the invariant. Its memory size is the model's choice (PRESUMED, log 1). -/
def Obligations.ResetHasTheInvariant : Prop := State.reset.Inv

/-- Every image that a core of legal size accepts starts in a state with the invariant. -/
def Obligations.EveryLoadHasTheInvariant : Prop :=
  ∀ (c : Config) (image : List Word) (s : State), c.Legal → State.load c image = some s → s.Inv

/-- Every step keeps the invariant: the memory stays canonical (DEDUCED, log 2; D2, log 3) and inside its
size, the pc at most `2^31 - 1` or `MEM_SIZE + 32767` (R87, R90; DEDUCED and wider than R14's bound, log
9), the record present exactly when the core is Faulted and then right (R101; no address for a pc fault,
DEDUCED, log 8; the word at the pc, DEDUCED, log 7; the checks' bounds by the spec's decisions D5, D6 and
D8, log 14 to 16, and precise faults by D11, log 17), and a Halted core at a halt (R95). -/
def Obligations.EveryStepKeepsTheInvariant : Prop :=
  ∀ s t : State, s.Inv → step s = .next t → t.Inv

/-- R14: the pc stays a 32-bit signed integer, for every memory that ends 32768 words below `2^31`;
the spec claims it for every legal size, where it is not so (log 9). -/
def Obligations.PcStaysASignedWordInSmallerMemories : Prop :=
  ∀ s t : State, s.Inv → s.config.memSize + 32767 ≤ 2 ^ 31 - 1 → step s = .next t →
    -2 ^ 31 ≤ t.pc ∧ t.pc ≤ 2 ^ 31 - 1

/-- R29, R101, R117: a run of any image hangs, and then no state of it has an exit code, or reaches one
that has. The exit code is 0 exactly where the core is Halted, at a halt that was counted and with no
record; it is 1 exactly where the core is Faulted, with a record that says rightly why; there is none
while the core runs. That memory and register-index faults give 1 is the spec's decision D23 (log 25);
what the record holds rests on log 7 and log 8 too, the bounds of the checks on its decisions D5, D6 and
D8 (log 14 to 16). -/
def Obligations.EveryRunEndsWithItsReason : Prop :=
  ∀ (c : Config) (image : List Word) (s : State), c.Legal → State.load c image = some s →
    (Hangs s ↔ ∀ t : State, Reaches s t → t.exitCode = none) ∧
    ∀ t : State, Reaches s t →
      (t.exitCode = none ↔ t.status = .running) ∧
      (t.exitCode = some 0 ↔ t.status = .halted) ∧
      (t.exitCode = some 1 ↔ t.status = .faulted) ∧
      (t.exitCode = some 0 →
        t.fault = none ∧ 1 ≤ t.icount ∧ bits (t.mem.read t.pc.toNat) 24 22 = 6) ∧
      (t.exitCode = some 1 → ∃ r : FaultRecord, t.fault = some r ∧ t.ExplainedBy r)

/-! ## Load and observation -/

/-- R26, R44, R120: what `load(image)` leaves, and which images it refuses (R78). That registers and
the words above the image are 0 are the spec's decisions D3 and D2 (log 4, 3); the limit on the
image is its decision D22 (log 24). -/
def Obligations.LoadGivesTheResetState : Prop :=
  ∀ (c : Config) (image : List Word),
    (c.memSize < image.length → State.load c image = none) ∧
    (image.length ≤ c.memSize →
      ∃ s : State, State.load c image = some s ∧ s.config = c ∧ s.nLoaded = image.length ∧
        s.pc = 0 ∧ (∀ r : RegIndex, s.readReg r = 0) ∧
        (∀ (k : Nat) (w : Word), image[k]? = some w → s.mem.read k = w) ∧
        (∀ k : Nat, image.length ≤ k → s.mem.read k = 0) ∧
        s.status = .running ∧ s.icount = 0 ∧ s.fault = none)

/-- R78: a text with a line that is no decimal integer in the 32-bit range is refused, and the core
does not run: the exit code is 1 (the range is the spec's decision D22, log 24). -/
def Obligations.MalformedTextIsRefused : Prop :=
  ∀ (c : Config) (text line : List Char) (fuel : Nat), line ∈ splitLines text →
    (∀ v : Int, parseDecimal line = some v → v < -2 ^ 31 ∨ 2 ^ 31 - 1 < v) →
    State.loadText c text = none ∧ simulatorExitCode c text fuel = some 1

/-- R27: a store at or above `N_LOADED` is in the state but not in the dump. -/
def Obligations.DumpHidesStoresAboveTheImage : Prop :=
  ∀ (s : State) (regA regB : RegIndex) (offset : Field16), OperandsFit (.sw regA regB offset) s →
    (s.nLoaded : Int) ≤ effectiveAddress (s.readReg regA) offset →
    ∃ t : State, exec (.sw regA regB offset) s = .next t ∧
      t.dump = { s.dump with pc := s.pc + 1 }

/-! ## The toolchain contract (30_encoding.md R61 to R79) -/

/-- R61, R64: an assembled program has exactly one word per source line. -/
def Obligations.AssemblerEmitsOneWordPerLine : Prop :=
  ∀ (source : List Char) (ws : List Word), assemble source = .ok ws →
    ws.length = (splitLines source).length

/-- R79, R73: assembling is lossless. Every word of an assembled program decodes to the mnemonic and the
operands of its line: register numbers, signed offsets (a label's address, or for beq its distance
less one, R70). The word of a `.fill` line is its value (R73, whose range is the spec's decision D19).
That the word of line `k` stands at index `k`, with no line of empty opcode, is its decision D16; how a
line splits and an operand reads are its decisions D15, D17, D18 and D20 (all log 26). How lines end is
DEDUCED (log 22). -/
def Obligations.AssembledWordsDecodeToTheirLines : Prop :=
  ∀ (source : List Char) (ws : List Word), assemble source = .ok ws →
    ∀ (k : Nat) (w : Word), ws[k]? = some w →
      ∃ l : SourceLine, ((splitLines source).map splitFields)[k]? = some l ∧
        SaysLine ((splitLines source).map splitFields) k l w

/-- R65, R66: in a program that assembles, no label is bound twice and every label has 1 to 6
characters and begins with no digit. -/
def Obligations.AssembledLabelsAreUniqueAndValid : Prop :=
  ∀ (source : List Char) (ws : List Word) (j k : Nat) (l m : SourceLine),
    assemble source = .ok ws →
    ((splitLines source).map splitFields)[j]? = some l →
    ((splitLines source).map splitFields)[k]? = some m →
    l.label ≠ [] →
    (l.label = m.label → j = k) ∧ l.label.length ≤ 6 ∧
      ∀ c : Char, l.label.head? = some c → isDigit c = false

/-- R71: an offset is stored exactly when it fits 16 signed bits, as its value modulo `2^16`, and
sign extension gives it back. -/
def Obligations.OffsetsAreStoredExactlyInRange : Prop :=
  ∀ v : Int,
    ((-32768 ≤ v ∧ v ≤ 32767) →
      ∃ f : Field16, storeOffset v = .ok f ∧ (f.toNat : Int) = v % 65536 ∧ sext16 f = v) ∧
    ((v < -32768 ∨ 32767 < v) → storeOffset v = .error .offsetRange)

/-- R67: a register operand encodes exactly when it is a decimal integer in `[0, 7]`, as that
register (its decimal form is the spec's decision D17, log 26). -/
def Obligations.RegisterOperandsEncodeExactlyInRange : Prop :=
  ∀ t : Token,
    (∀ r : RegIndex, registerOperand t = .ok r ↔ parseDecimal t = some (r.val : Int)) ∧
    ((∀ v : Int, parseDecimal t = some v → v < 0 ∨ 7 < v) →
      registerOperand t = .error .registerRange)

/-- R75, R78: the loader reads back exactly the words that the assembler writes, every line of which the
model ends with a line feed (DESIGN CHOICE, log 30; how the loader reads lines is DEDUCED, log 22). -/
def Obligations.LoaderReadsWhatTheAssemblerWrites : Prop :=
  ∀ image : List Word, readImage (renderImage image) = some image

/-- R44, R61, R75, R78: a source program that assembles to words that fit in memory leaves a text
that loads, with the word of line `k` at address `k`, and exit code 0. One word a line is the spec's
decision D16 (log 26); how the text's lines end is the model's (log 22, log 30). -/
def Obligations.AssembledProgramLoadsLineByLine : Prop :=
  ∀ (c : Config) (source : List Char) (ws : List Word), assemble source = .ok ws →
    ws.length ≤ c.memSize →
    ∃ (text : List Char) (s : State),
      runAssembler source = { output := some text, exitCode := 0 } ∧
      State.loadText c text = some s ∧ s.nLoaded = (splitLines source).length ∧
      ∀ (k : Nat) (w : Word), ws[k]? = some w → s.mem.read k = w
end

