-- ==== Sys2Proof/Laws/Decode.lean ====
section
/-! SUPPORT. The fields of words as numbers: the decoder's fields by division and remainder
(30_encoding.md R46, R51), and the canonical word as the sum of its shifted fields (R54). -/

namespace Sys2Proof

theorem field3_val (w : Word) (lo : Nat) : (field3 w lo).val = w.toNat / 2 ^ lo % 8 := by
  simp [field3, Nat.shiftRight_eq_div_pow]

theorem fieldsOf_fieldC_toNat (w : Word) : (fieldsOf w).fieldC.toNat = w.toNat % 2 ^ 16 := by
  simp [fieldsOf]

/-- The canonical word as the sum of its shifted fields: they do not overlap (R46). -/
theorem canonicalWord_toNat (op : Fin 8) (regA regB : RegIndex) (low16 : Field16) :
    (canonicalWord op regA regB low16).toNat =
      op.val * 2 ^ 22 + regA.val * 2 ^ 19 + regB.val * 2 ^ 16 + low16.toNat := by
  have hop := op.isLt
  have ha := regA.isLt
  have hb := regB.isLt
  have hc : low16.toNat < 2 ^ 16 := low16.isLt
  have join (i a b : Nat) (h : b < 2 ^ i) : 2 ^ i * a ||| b = 2 ^ i * a + b :=
    (Nat.two_pow_add_eq_or_of_lt h a).symm
  have small (n k : Nat) (hn : n < 8) (hk : k ≤ 22) :
      (n % 4294967296) <<< k % 4294967296 = 2 ^ k * n := by
    have hp : 2 ^ k ≤ 2 ^ 22 := Nat.pow_le_pow_right (by omega) hk
    have hm : 2 ^ k * n ≤ 2 ^ 22 * 7 := Nat.mul_le_mul hp (by omega)
    rw [Nat.mod_eq_of_lt (show n < 4294967296 by omega), Nat.shiftLeft_eq, Nat.mul_comm n,
      Nat.mod_eq_of_lt (by omega)]
  simp only [canonicalWord, BitVec.toNat_or, BitVec.toNat_shiftLeft, BitVec.toNat_ofNat,
    BitVec.toNat_setWidth]
  rw [show (2 : Nat) ^ 32 = 4294967296 from rfl, small _ 22 hop (by omega), small _ 19 ha (by omega),
    small _ 16 hb (by omega), Nat.mod_eq_of_lt (by omega), join 22 op.val _ (by omega),
    show 2 ^ 22 * op.val + 2 ^ 19 * regA.val = 2 ^ 19 * (8 * op.val + regA.val) by omega,
    join 19 _ _ (by omega),
    show 2 ^ 19 * (8 * op.val + regA.val) + 2 ^ 16 * regB.val =
      2 ^ 16 * (64 * op.val + 8 * regA.val + regB.val) by omega,
    join 16 _ _ hc]
  omega

end Sys2Proof
end

