-- ==== Sys2Proof/Laws/Operands.lean ====
section
/-! SUPPORT. The number readings of patterns, and the operand forms, each characterised once. -/

namespace Sys2Proof.Machine

theorem s32_low (v : Word) : -2 ^ 31 ≤ s32 v := by
  simpa [s32] using BitVec.le_toInt (w := 32) v

theorem s32_high (v : Word) : s32 v ≤ 2 ^ 31 - 1 := by
  have h := BitVec.toInt_lt (w := 32) (x := v)
  simp only [s32]
  omega

/-- A number in the signed range survives as a pattern (R5). -/
theorem s32_bits32 (v : Int) (low : -2 ^ 31 ≤ v) (high : v ≤ 2 ^ 31 - 1) : s32 (bits32 v) = v := by
  rw [s32, bits32, BitVec.toInt_ofInt]
  exact Int.bmod_eq_of_le (by norm_num; omega) (by norm_num; omega)

/-- A pattern is the pattern of its number (R5). -/
@[simp] theorem bits32_s32 (v : Word) : bits32 (s32 v) = v := by
  simp [s32, bits32]

/-- The pattern of a number and of its wrapped number are the same (R7). -/
@[simp] theorem bits32_wrap32 (v : Int) : bits32 (wrap32 v) = bits32 v := by
  apply BitVec.eq_of_toInt_eq
  simp only [bits32, wrap32, BitVec.toInt_ofInt]
  simp only [Int.bmod_def]
  omega

/-- `sext_16` is the two's-complement reading of the field (R6). -/
theorem sext16_eq_toInt (f : Field16) : sext16 f = f.toInt := by
  have h := f.isLt
  rw [sext16, BitVec.toInt_eq_msb_cond, BitVec.msb_eq_getLsbD_last]
  rfl

theorem sext16_low (f : Field16) : -32768 ≤ sext16 f := by
  rw [sext16_eq_toInt]
  simpa using BitVec.le_toInt (w := 16) f

theorem sext16_high (f : Field16) : sext16 f ≤ 32767 := by
  have h := BitVec.toInt_lt (w := 16) (x := f)
  rw [sext16_eq_toInt]
  omega

/-- add is the 32-bit adder (R80). -/
theorem addWord_eq_add (a b : Word) : addWord a b = a + b := by
  rw [addWord, bits32_wrap32, bits32, s32, s32, BitVec.ofInt_add, BitVec.ofInt_toInt,
    BitVec.ofInt_toInt]

theorem destRegister_of_le (fieldC : Field16) (h : fieldC.toNat ≤ 7) :
    destRegister fieldC = some ⟨fieldC.toNat, by omega⟩ := by
  simp [destRegister, show fieldC.toNat < 8 by omega]

theorem destRegister_of_gt (fieldC : Field16) (h : 7 < fieldC.toNat) :
    destRegister fieldC = none := by
  simp [destRegister, show ¬fieldC.toNat < 8 by omega]

/-- R53, both ways: the field names the register with its number, and only a number up to 7 names one. -/
theorem destRegister_eq_some_iff (fieldC : Field16) (d : RegIndex) :
    destRegister fieldC = some d ↔ fieldC.toNat = d.val := by
  have hd := d.isLt
  unfold destRegister
  split
  · simp [Fin.ext_iff]
  · simp; omega

end Sys2Proof.Machine
end

