-- ==== Sys2Proof/Laws/State.lean ====
section
/-! SUPPORT. What each named update of State does to each field, and reading a register after
writing one. No later proof unfolds a record update. -/

namespace Sys2Proof.Machine

/-! ### `State.writeReg` -/

@[simp] theorem State.writeReg_config (s : State) (i : RegIndex) (v : Word) :
    (s.writeReg i v).config = s.config := rfl

@[simp] theorem State.writeReg_nLoaded (s : State) (i : RegIndex) (v : Word) :
    (s.writeReg i v).nLoaded = s.nLoaded := rfl

@[simp] theorem State.writeReg_pc (s : State) (i : RegIndex) (v : Word) :
    (s.writeReg i v).pc = s.pc := rfl

@[simp] theorem State.writeReg_x (s : State) (i : RegIndex) (v : Word) :
    (s.writeReg i v).x = s.x.set i.val v := rfl

@[simp] theorem State.writeReg_mem (s : State) (i : RegIndex) (v : Word) :
    (s.writeReg i v).mem = s.mem := rfl

@[simp] theorem State.writeReg_status (s : State) (i : RegIndex) (v : Word) :
    (s.writeReg i v).status = s.status := rfl

@[simp] theorem State.writeReg_icount (s : State) (i : RegIndex) (v : Word) :
    (s.writeReg i v).icount = s.icount := rfl

@[simp] theorem State.writeReg_fault (s : State) (i : RegIndex) (v : Word) :
    (s.writeReg i v).fault = s.fault := rfl

/-! ### `State.memWrite` -/

@[simp] theorem State.memWrite_config (s : State) (a : Int) (v : Word) :
    (s.memWrite a v).config = s.config := rfl

@[simp] theorem State.memWrite_nLoaded (s : State) (a : Int) (v : Word) :
    (s.memWrite a v).nLoaded = s.nLoaded := rfl

@[simp] theorem State.memWrite_pc (s : State) (a : Int) (v : Word) :
    (s.memWrite a v).pc = s.pc := rfl

@[simp] theorem State.memWrite_x (s : State) (a : Int) (v : Word) :
    (s.memWrite a v).x = s.x := rfl

@[simp] theorem State.memWrite_mem (s : State) (a : Int) (v : Word) :
    (s.memWrite a v).mem = s.mem.write a.toNat v := rfl

@[simp] theorem State.memWrite_status (s : State) (a : Int) (v : Word) :
    (s.memWrite a v).status = s.status := rfl

@[simp] theorem State.memWrite_icount (s : State) (a : Int) (v : Word) :
    (s.memWrite a v).icount = s.icount := rfl

@[simp] theorem State.memWrite_fault (s : State) (a : Int) (v : Word) :
    (s.memWrite a v).fault = s.fault := rfl

/-! ### `State.retire` -/

@[simp] theorem State.retire_config (s : State) (nextPc : Int) :
    (s.retire nextPc).config = s.config := rfl

@[simp] theorem State.retire_nLoaded (s : State) (nextPc : Int) :
    (s.retire nextPc).nLoaded = s.nLoaded := rfl

@[simp] theorem State.retire_pc (s : State) (nextPc : Int) :
    (s.retire nextPc).pc = nextPc := rfl

@[simp] theorem State.retire_x (s : State) (nextPc : Int) :
    (s.retire nextPc).x = s.x := rfl

@[simp] theorem State.retire_mem (s : State) (nextPc : Int) :
    (s.retire nextPc).mem = s.mem := rfl

@[simp] theorem State.retire_status (s : State) (nextPc : Int) :
    (s.retire nextPc).status = s.status := rfl

@[simp] theorem State.retire_icount (s : State) (nextPc : Int) :
    (s.retire nextPc).icount = s.icount + 1 := rfl

@[simp] theorem State.retire_fault (s : State) (nextPc : Int) :
    (s.retire nextPc).fault = s.fault := rfl

/-! ### `State.retireHalted` -/

@[simp] theorem State.retireHalted_config (s : State) (nextPc : Int) :
    (s.retireHalted nextPc).config = s.config := rfl

@[simp] theorem State.retireHalted_nLoaded (s : State) (nextPc : Int) :
    (s.retireHalted nextPc).nLoaded = s.nLoaded := rfl

@[simp] theorem State.retireHalted_pc (s : State) (nextPc : Int) :
    (s.retireHalted nextPc).pc = nextPc := rfl

@[simp] theorem State.retireHalted_x (s : State) (nextPc : Int) :
    (s.retireHalted nextPc).x = s.x := rfl

@[simp] theorem State.retireHalted_mem (s : State) (nextPc : Int) :
    (s.retireHalted nextPc).mem = s.mem := rfl

@[simp] theorem State.retireHalted_status (s : State) (nextPc : Int) :
    (s.retireHalted nextPc).status = .halted := rfl

@[simp] theorem State.retireHalted_icount (s : State) (nextPc : Int) :
    (s.retireHalted nextPc).icount = s.icount + 1 := rfl

@[simp] theorem State.retireHalted_fault (s : State) (nextPc : Int) :
    (s.retireHalted nextPc).fault = s.fault := rfl

/-! ### `State.raise` -/

@[simp] theorem State.raise_config (s : State) (code : FaultCode) (addr : Option Int) :
    (s.raise code addr).config = s.config := rfl

@[simp] theorem State.raise_nLoaded (s : State) (code : FaultCode) (addr : Option Int) :
    (s.raise code addr).nLoaded = s.nLoaded := rfl

@[simp] theorem State.raise_pc (s : State) (code : FaultCode) (addr : Option Int) :
    (s.raise code addr).pc = s.pc := rfl

@[simp] theorem State.raise_x (s : State) (code : FaultCode) (addr : Option Int) :
    (s.raise code addr).x = s.x := rfl

@[simp] theorem State.raise_mem (s : State) (code : FaultCode) (addr : Option Int) :
    (s.raise code addr).mem = s.mem := rfl

@[simp] theorem State.raise_status (s : State) (code : FaultCode) (addr : Option Int) :
    (s.raise code addr).status = .faulted := rfl

@[simp] theorem State.raise_icount (s : State) (code : FaultCode) (addr : Option Int) :
    (s.raise code addr).icount = s.icount := rfl

@[simp] theorem State.raise_fault (s : State) (code : FaultCode) (addr : Option Int) :
    (s.raise code addr).fault = some { code := code, pc := s.pc, word := s.fetchedWord, addr := addr } := rfl

/-! ### Derived reads: they look at the fields above only -/

@[simp] theorem State.inMemory_writeReg (s : State) (i : RegIndex) (v : Word) (a : Int) :
    (s.writeReg i v).inMemory a = s.inMemory a := rfl

@[simp] theorem State.inMemory_memWrite (s : State) (b : Int) (v : Word) (a : Int) :
    (s.memWrite b v).inMemory a = s.inMemory a := rfl

@[simp] theorem State.inMemory_retire (s : State) (nextPc a : Int) :
    (s.retire nextPc).inMemory a = s.inMemory a := rfl

@[simp] theorem State.inMemory_retireHalted (s : State) (nextPc a : Int) :
    (s.retireHalted nextPc).inMemory a = s.inMemory a := rfl

@[simp] theorem State.inMemory_raise (s : State) (code : FaultCode) (addr : Option Int) (a : Int) :
    (s.raise code addr).inMemory a = s.inMemory a := rfl

@[simp] theorem State.readReg_memWrite (s : State) (a : Int) (v : Word) (r : RegIndex) :
    (s.memWrite a v).readReg r = s.readReg r := rfl

@[simp] theorem State.readReg_retire (s : State) (nextPc : Int) (r : RegIndex) :
    (s.retire nextPc).readReg r = s.readReg r := rfl

@[simp] theorem State.readReg_retireHalted (s : State) (nextPc : Int) (r : RegIndex) :
    (s.retireHalted nextPc).readReg r = s.readReg r := rfl

@[simp] theorem State.readReg_raise (s : State) (code : FaultCode) (addr : Option Int) (r : RegIndex) :
    (s.raise code addr).readReg r = s.readReg r := rfl

/-- R11: a write replaces one register and leaves the other seven. -/
theorem State.readReg_writeReg (s : State) (i : RegIndex) (v : Word) (r : RegIndex) :
    (s.writeReg i v).readReg r = if r = i then v else s.readReg r := by
  by_cases h : r = i
  · subst h
    simp [State.readReg, State.writeReg]
  · have hne : i.val ≠ r.val := fun e => h (Fin.ext e.symm)
    simp [State.readReg, State.writeReg, h, hne]

@[simp] theorem State.readReg_writeReg_same (s : State) (i : RegIndex) (v : Word) :
    (s.writeReg i v).readReg i = v := by
  simp [State.readReg_writeReg]

theorem State.readReg_writeReg_other (s : State) (i : RegIndex) (v : Word) (r : RegIndex)
    (h : r ≠ i) : (s.writeReg i v).readReg r = s.readReg r := by
  simp [State.readReg_writeReg, h]

theorem State.inMemory_iff (s : State) (a : Int) :
    s.inMemory a = true ↔ 0 ≤ a ∧ a < s.config.memSize := by
  simp [State.inMemory]

theorem State.fetchedWord_of_inMemory (s : State) (h : s.inMemory s.pc = true) :
    s.fetchedWord = some (s.memRead s.pc) := by
  simp [State.fetchedWord, h]

theorem State.fetchedWord_eq_none_iff (s : State) :
    s.fetchedWord = none ↔ s.inMemory s.pc = false := by
  simp [State.fetchedWord]

/-- Raising a fault leaves what a step fetches: the pc and the memory are unchanged (R106). -/
@[simp] theorem State.fetchedWord_raise (s : State) (code : FaultCode) (addr : Option Int) :
    (s.raise code addr).fetchedWord = s.fetchedWord := rfl

end Sys2Proof.Machine
end

