-- ==== Sys2Proof/Laws/Exec.lean ====
section
/-! SUPPORT. What each shared operation, each instruction and a step can do, said once: the lemmas
that claims about steps are derived from. -/

namespace Sys2Proof.Machine

/-- add and nor: a fault with nothing changed, or one register written (R80, R81). -/
theorem registerOp_cases {f : Word → Word → Word} {regA regB : RegIndex} {fieldC : Field16}
    {s t : State} (h : registerOp f regA regB fieldC s = .next t) :
    (7 < fieldC.toNat ∧ t = s.raise .regIndexOutOfRange (some (fieldC.toNat : Int))) ∨
    (∃ d : RegIndex, fieldC.toNat = d.val ∧
      t = (s.writeReg d (f (s.readReg regA) (s.readReg regB))).retire (s.pc + 1)) := by
  unfold registerOp at h
  cases hd : destRegister fieldC with
  | none =>
    rw [hd] at h
    refine .inl ⟨?_, by simpa using h.symm⟩
    by_contra hle
    rw [destRegister_of_le fieldC (by omega)] at hd
    cases hd
  | some d =>
    rw [hd] at h
    exact .inr ⟨d, (destRegister_eq_some_iff fieldC d).mp hd, by simpa using h.symm⟩

/-- lw and sw: a fault with nothing changed, or the access (R84 to R86). -/
theorem memoryOp_cases {access : Int → State} {regA : RegIndex} {offset : Field16} {s t : State}
    (h : memoryOp access regA offset s = .next t) :
    (s.inMemory (effectiveAddress (s.readReg regA) offset) = false ∧
      t = s.raise .memAddrOutOfRange (some (effectiveAddress (s.readReg regA) offset))) ∨
    (s.inMemory (effectiveAddress (s.readReg regA) offset) = true ∧
      t = (access (effectiveAddress (s.readReg regA) offset)).retire (s.pc + 1)) := by
  unfold memoryOp at h
  cases hm : s.inMemory (effectiveAddress (s.readReg regA) offset) with
  | false => exact .inl ⟨rfl, by simpa [hm] using h.symm⟩
  | true => exact .inr ⟨rfl, by simpa [hm] using h.symm⟩

/-- lw: a fault, or one register written with the word at the effective address (R85). -/
theorem execLw_cases {regA regB : RegIndex} {offset : Field16} {s t : State}
    (h : execLw regA regB offset s = .next t) :
    (s.inMemory (effectiveAddress (s.readReg regA) offset) = false ∧
      t = s.raise .memAddrOutOfRange (some (effectiveAddress (s.readReg regA) offset))) ∨
    (s.inMemory (effectiveAddress (s.readReg regA) offset) = true ∧
      t = (s.writeReg regB (s.memRead (effectiveAddress (s.readReg regA) offset))).retire
        (s.pc + 1)) := by
  unfold execLw at h
  exact memoryOp_cases h

/-- sw: a fault, or one word of memory written, at the effective address (R86). -/
theorem execSw_cases {regA regB : RegIndex} {offset : Field16} {s t : State}
    (h : execSw regA regB offset s = .next t) :
    (s.inMemory (effectiveAddress (s.readReg regA) offset) = false ∧
      t = s.raise .memAddrOutOfRange (some (effectiveAddress (s.readReg regA) offset))) ∨
    (s.inMemory (effectiveAddress (s.readReg regA) offset) = true ∧
      t = (s.memWrite (effectiveAddress (s.readReg regA) offset) (s.readReg regB)).retire
        (s.pc + 1)) := by
  unfold execSw at h
  exact memoryOp_cases h

/-- beq: only the pc moves, and icount (R87). -/
theorem execBeq_cases {regA regB : RegIndex} {offset : Field16} {s t : State}
    (h : execBeq regA regB offset s = .next t) :
    (s.readReg regA = s.readReg regB ∧ t = s.retire (branchTarget s.pc offset)) ∨
    (s.readReg regA ≠ s.readReg regB ∧ t = s.retire (s.pc + 1)) := by
  unfold execBeq wordsEqual at h
  by_cases hab : s.readReg regA = s.readReg regB
  · exact .inl ⟨hab, by simpa [hab] using h.symm⟩
  · exact .inr ⟨hab, by simpa [hab] using h.symm⟩

/-- jalr: the link, then the target read after it (R90). -/
theorem execJalr_cases {regA regB : RegIndex} {s t : State} (h : execJalr regA regB s = .next t) :
    t = (s.writeReg regB (bits32 (s.pc + 1))).retire
      (s32 (if regA = regB then bits32 (s.pc + 1) else s.readReg regA)) := by
  unfold execJalr at h
  rw [← State.readReg_writeReg]
  simpa using h.symm

theorem execHalt_cases {s t : State} (h : execHalt s = .next t) : t = s.retireHalted s.pc := by
  simpa [execHalt] using h.symm

theorem execNoop_cases {s t : State} (h : execNoop s = .next t) : t = s.retire (s.pc + 1) := by
  simpa [execNoop] using h.symm

/-- A step that answers a next state ran from status Running, and either fetched no word and raised
PC_OUT_OF_RANGE, or ran the instruction of the fetched word (10_state.md R24). -/
theorem step_cases {s t : State} (h : step s = .next t) :
    s.status = .running ∧
    ((s.fetchedWord = none ∧ t = s.raise .pcOutOfRange none) ∨
     (∃ w, s.fetchedWord = some w ∧ exec (decode w) s = .next t)) := by
  unfold step at h
  cases hs : s.status with
  | halted => simp [hs] at h
  | faulted => simp [hs] at h
  | running =>
    refine ⟨rfl, ?_⟩
    cases hw : s.fetchedWord with
    | none => exact .inl ⟨rfl, by simpa [hs, hw] using h.symm⟩
    | some w => exact .inr ⟨w, rfl, by simpa [hs, hw] using h⟩

/-- The fetched word is the word at `pc`, which is in memory (20_memory.md R32). -/
theorem fetchedWord_cases {s : State} {w : Word} (h : s.fetchedWord = some w) :
    0 ≤ s.pc ∧ s.pc < s.config.memSize ∧ s.mem.read s.pc.toNat = w := by
  unfold State.fetchedWord at h
  split at h
  · obtain ⟨low, high⟩ := (s.inMemory_iff s.pc).mp ‹_›
    exact ⟨low, high, by simpa [State.memRead] using h⟩
  · cases h

end Sys2Proof.Machine
end

