-- ==== Sys2Proof/Laws/Memory.lean ====
section
/-! SUPPORT. The laws of the memory operations: a read after a write, the canonical form, and the
memory of a loaded image. -/

namespace Sys2Proof.Machine

/-- A read of an address below every listed address. -/
theorem Memory.read_below (m : Memory) (a : Nat) (h : ∀ c ∈ m, a < c.1) :
    m.read a = Memory.unlisted := by
  induction m with
  | nil => rfl
  | cons c rest ih =>
    obtain ⟨k, u⟩ := c
    have hk : k ≠ a := Nat.ne_of_gt (h (k, u) (by simp))
    rw [Memory.read, if_neg hk]
    exact ih fun d hd => h d (by simp [hd])

/-- What a write can list: the written word or an old entry. -/
theorem Memory.mem_write {m : Memory} {a : Nat} {v : Word} {c : Nat × Word}
    (hc : c ∈ m.write a v) : c = (a, v) ∧ v ≠ Memory.unlisted ∨ c ∈ m := by
  induction m with
  | nil =>
    by_cases hv : v = Memory.unlisted <;> simp_all [Memory.write]
  | cons d rest ih =>
    obtain ⟨k, u⟩ := d
    rw [Memory.write] at hc
    split at hc
    · rcases List.mem_cons.mp hc with rfl | hc
      · exact .inr (by simp)
      · exact (ih hc).imp_right (List.mem_cons_of_mem _)
    · split at hc
      · split at hc
        · exact .inr (List.mem_cons_of_mem _ hc)
        · rcases List.mem_cons.mp hc with rfl | hc
          · exact .inl ⟨rfl, ‹_›⟩
          · exact .inr (List.mem_cons_of_mem _ hc)
      · split at hc
        · exact .inr hc
        · rcases List.mem_cons.mp hc with rfl | hc
          · exact .inl ⟨rfl, ‹_›⟩
          · exact .inr hc

/-- A write keeps the canonical form. -/
theorem Memory.write_wf {m : Memory} (h : m.wf) (a : Nat) (v : Word) : (m.write a v).wf := by
  refine ⟨?_, fun c hc => ?_⟩
  · obtain ⟨sorted, -⟩ := h
    induction m with
    | nil => by_cases hv : v = Memory.unlisted <;> simp [Memory.write, hv]
    | cons d rest ih =>
      obtain ⟨k, u⟩ := d
      obtain ⟨below, rising⟩ := List.pairwise_cons.mp sorted
      rw [Memory.write]
      split
      · refine List.pairwise_cons.mpr ⟨fun c hc => ?_, ih rising⟩
        rcases Memory.mem_write hc with ⟨rfl, -⟩ | hc
        · assumption
        · exact below c hc
      · split
        · subst k
          split
          · exact rising
          · exact List.pairwise_cons.mpr ⟨below, rising⟩
        · split
          · exact sorted
          · refine List.pairwise_cons.mpr ⟨fun c hc => ?_, sorted⟩
            have hak : a < k := by omega
            rcases List.mem_cons.mp hc with rfl | hc
            · exact hak
            · exact Nat.lt_trans hak (below c hc)
  · rcases Memory.mem_write hc with ⟨rfl, hv⟩ | hc
    · exact hv
    · exact h.2 c hc

/-- A write leaves every other word alone (20_memory.md R33). -/
theorem Memory.read_write_other (m : Memory) {a b : Nat} (v : Word) (hab : b ≠ a) :
    (m.write a v).read b = m.read b := by
  have hba : a ≠ b := Ne.symm hab
  induction m with
  | nil => by_cases hv : v = Memory.unlisted <;> simp [Memory.write, Memory.read, hv, hba]
  | cons d rest ih =>
    obtain ⟨k, u⟩ := d
    rw [Memory.write]
    split
    · simp [Memory.read, ih]
    · split
      · subst k
        split <;> simp [Memory.read, hba]
      · split
        · rfl
        · simp [Memory.read, hba]

/-- A read of the written address gives the written word (20_memory.md R33). -/
theorem Memory.read_write_same {m : Memory} (h : m.wf) (a : Nat) (v : Word) :
    (m.write a v).read a = v := by
  obtain ⟨sorted, -⟩ := h
  induction m with
  | nil => by_cases hv : v = Memory.unlisted <;> simp [Memory.write, Memory.read, hv]
  | cons d rest ih =>
    obtain ⟨k, u⟩ := d
    obtain ⟨below, rising⟩ := List.pairwise_cons.mp sorted
    rw [Memory.write]
    split
    · have hka : k ≠ a := by omega
      simpa [Memory.read, hka] using ih rising
    · split
      · subst k
        split
        · rw [Memory.read_below rest a below, ‹v = Memory.unlisted›]
        · simp [Memory.read]
      · have hak : a < k := by omega
        split
        · rw [Memory.read_below _ a, ‹v = Memory.unlisted›]
          intro c hc
          rcases List.mem_cons.mp hc with rfl | hc
          · exact hak
          · exact Nat.lt_trans hak (below c hc)
        · simp [Memory.read]

theorem Memory.read_write {m : Memory} (h : m.wf) (a b : Nat) (v : Word) :
    (m.write a v).read b = if b = a then v else m.read b := by
  split
  · subst b; exact Memory.read_write_same h a v
  · exact Memory.read_write_other m v ‹_›

/-! ## The memory of an image (20_memory.md R44) -/

theorem mem_imageCells {k : Nat} {image : List Word} {c : Nat × Word}
    (hc : c ∈ imageCells k image) :
    k ≤ c.1 ∧ c.1 < k + image.length ∧ c.2 ≠ Memory.unlisted := by
  induction image generalizing k with
  | nil => simp [imageCells] at hc
  | cons w ws ih =>
    have later : c ∈ imageCells (k + 1) ws →
        k ≤ c.1 ∧ c.1 < k + (w :: ws).length ∧ c.2 ≠ Memory.unlisted := fun h => by
      obtain ⟨low, high, hv⟩ := ih h
      exact ⟨by omega, by simp only [List.length_cons]; omega, hv⟩
    rw [imageCells] at hc
    split at hc
    · exact later hc
    · rcases List.mem_cons.mp hc with rfl | hc
      · exact ⟨Nat.le_refl k, by simp, ‹_›⟩
      · exact later hc

theorem imageCells_wf (k : Nat) (image : List Word) : (imageCells k image).wf := by
  refine ⟨?_, fun c hc => (mem_imageCells hc).2.2⟩
  induction image generalizing k with
  | nil => simp [imageCells]
  | cons w ws ih =>
    rw [imageCells]
    split
    · exact ih (k + 1)
    · exact List.pairwise_cons.mpr ⟨fun c hc => (mem_imageCells hc).1, ih (k + 1)⟩

theorem read_imageCells (k : Nat) (image : List Word) (i : Nat) :
    Memory.read (imageCells k image) (k + i) = image.getD i Memory.unlisted := by
  induction image generalizing k i with
  | nil => simp [imageCells, Memory.read]
  | cons w ws ih =>
    have below : ∀ c ∈ imageCells (k + 1) ws, k < c.1 := fun c hc => (mem_imageCells hc).1
    rw [imageCells]
    cases i with
    | zero =>
      split
      · simpa [‹w = Memory.unlisted›] using Memory.read_below _ k below
      · simp [Memory.read]
    | succ j =>
      have shift : k + (j + 1) = k + 1 + j := by omega
      have hne : k ≠ k + 1 + j := by omega
      split <;> simp [Memory.read, shift, hne, ih]

end Sys2Proof.Machine
end

