-- ==== Sys2Proof/Laws/PerInstr.lean ====
section
/-! SUPPORT. Facts of every instruction as syntax, one lemma per constructor. -/

namespace Sys2Proof.Laws.EncodingFormat

/-- The word of an instruction has bits 31:25 zero and its opcode number in bits 24:22 (30_encoding.md
R46, R54, R55). -/
def Statement (i : Instr) : Prop :=
  (encode i).toNat < 2 ^ 25 ∧ (fieldsOf (encode i)).op = i.opcode

/-- It holds of every canonical word. -/
theorem of_canonicalWord (op : Fin 8) (regA regB : RegIndex) (low16 : Field16) :
    (canonicalWord op regA regB low16).toNat < 2 ^ 25 ∧
      (fieldsOf (canonicalWord op regA regB low16)).op = op := by
  have hop := op.isLt
  have ha := regA.isLt
  have hb := regB.isLt
  have hc : low16.toNat < 2 ^ 16 := low16.isLt
  have sum := canonicalWord_toNat op regA regB low16
  refine ⟨by omega, Fin.ext ?_⟩
  rw [fieldsOf, field3_val]
  omega

theorem add (regA regB : RegIndex) (fieldC : Field16) : Statement (.add regA regB fieldC) :=
  of_canonicalWord 0 regA regB fieldC

theorem nor (regA regB : RegIndex) (fieldC : Field16) : Statement (.nor regA regB fieldC) :=
  of_canonicalWord 1 regA regB fieldC

theorem lw (regA regB : RegIndex) (offset : Field16) : Statement (.lw regA regB offset) :=
  of_canonicalWord 2 regA regB offset

theorem sw (regA regB : RegIndex) (offset : Field16) : Statement (.sw regA regB offset) :=
  of_canonicalWord 3 regA regB offset

theorem beq (regA regB : RegIndex) (offset : Field16) : Statement (.beq regA regB offset) :=
  of_canonicalWord 4 regA regB offset

theorem jalr (regA regB : RegIndex) : Statement (.jalr regA regB) :=
  of_canonicalWord 5 regA regB 0

theorem halt : Statement .halt := of_canonicalWord 6 0 0 0

theorem noop : Statement .noop := of_canonicalWord 7 0 0 0

end Sys2Proof.Laws.EncodingFormat
end

