-- ==== Sys2Proof/Laws/Runs.lean ====
section
/-! SUPPORT. Runs: what reset is, the induction over steps packaged once, and exit codes. -/

namespace Sys2Proof.Machine

/-- The reset state is the load of the empty image (70_reset_and_hazards.md R120). -/
theorem load_nil_eq_reset : State.load Config.standard [] = some State.reset := rfl

theorem reset_memory_wf : State.reset.mem.wf := imageCells_wf 0 []

/-- What holds at the start of a run and is kept by every step holds of every state reached. -/
theorem Reaches.keeps {P : State → Prop} (kept : ∀ s t, P s → step s = .next t → P t) {s t : State}
    (run : Reaches s t) (start : P s) : P t := by
  induction run with
  | refl => exact start
  | tail t u _ last ih => exact kept t u ih last

theorem Reaches.head {s t u : State} (first : step s = .next t) (run : Reaches t u) : Reaches s u := by
  induction run with
  | refl => exact .tail _ _ _ (.refl s) first
  | tail v w _ last ih => exact .tail _ _ _ ih last

/-- A run under fuel ends in a state that its start reaches. -/
theorem reaches_runFor (fuel : Nat) (s : State) : Reaches s (runFor fuel s) := by
  induction fuel generalizing s with
  | zero => exact .refl s
  | succ n ih =>
    rw [runFor]
    split
    · exact .head ‹_› (ih _)
    · exact .refl s
    · exact .refl s

/-- One more step of fuel is one more step at the end of the run. -/
theorem runFor_snoc {n : Nat} {s t u : State} (before : runFor n s = t) (last : step t = .next u) :
    runFor (n + 1) s = u := by
  induction n generalizing s with
  | zero => subst before; simp only [runFor] at last ⊢; rw [last]
  | succ n ih =>
    rw [runFor] at before ⊢
    split at before
    · exact ih before
    · subst before; simp_all
    · subst before; simp_all

/-- The states that a run reaches are the ones it has after some number of steps. -/
theorem reaches_iff_runFor {s t : State} : Reaches s t ↔ ∃ n : Nat, runFor n s = t := by
  refine ⟨fun run => ?_, fun ⟨n, h⟩ => h ▸ reaches_runFor n s⟩
  induction run with
  | refl => exact ⟨0, rfl⟩
  | tail t u _ last ih => exact ih.elim fun n h => ⟨n + 1, runFor_snoc h last⟩

/-! What an exit code says (60_exceptions.md R117). -/

theorem exitCode_eq_none_iff {s : State} : s.exitCode = none ↔ s.status = .running := by
  rw [State.exitCode]; cases s.status <;> simp

theorem exitCode_eq_zero_iff {s : State} : s.exitCode = some 0 ↔ s.status = .halted := by
  rw [State.exitCode]; cases s.status <;> simp

theorem exitCode_eq_one_iff {s : State} : s.exitCode = some 1 ↔ s.status = .faulted := by
  rw [State.exitCode]; cases s.status <;> simp

end Sys2Proof.Machine
end

