-- ==== Sys2Proof/Tests/Slice0.lean ====
section
/-! SUPPORT. The model's own tests. Every expected value is from the spec: 95_test_vectors.md (the
vector is named), the examples of the rules, or a word written out from the formats R47 to R50. -/

namespace Sys2Proof.Tests

open Sys2Proof.Machine

/-- The reset state at `pc`, with the word `w` there. -/
def placed (pc : Nat) (w : Word) : State :=
  { State.reset with pc := pc, mem := Memory.write [] pc w }

/-- The same with two registers set. -/
def placedWith (pc : Nat) (w : Word) (i : RegIndex) (u : Word) (j : RegIndex) (v : Word) : State :=
  ((placed pc w).writeReg i u).writeReg j v

/-- What `look` shows of the next state, none when there is no next state. -/
def after {α : Type} (look : State → α) (o : Host.Outcome State Fault Refusal) : Option α :=
  match o with
  | .next t => some (look t)
  | .fault _ => none
  | .refused _ => none

/-! ## Well-formedness: the reserved encodings are refused (R56) -/

theorem test_wf_refuses_add_to_8 : (Instr.add 0 0 8).wf = false := by decide

theorem test_wf_refuses_nor_to_16 : (Instr.nor 1 2 16).wf = false := by decide

theorem test_wf_accepts_add_to_7 : (Instr.add 7 7 7).wf = true := by decide

/-! ## Decoding: one word of every instruction, field by field from its format -/

theorem test_decode_add_bits :
    decode 0b0000000_000_001_010_0000000000000_011 = .add 1 2 3 := by decide

theorem test_decode_nor_bits :
    decode 0b0000000_001_010_010_0000000000000_011 = .nor 2 2 3 := by decide

theorem test_decode_lw_bits :
    decode 0b0000000_010_001_010_1111111111111111 = .lw 1 2 0xFFFF := by decide

theorem test_decode_sw_bits :
    decode 0b0000000_011_000_001_0000000000001001 = .sw 0 1 9 := by decide

theorem test_decode_beq_bits :
    decode 0b0000000_100_101_110_1000000000000000 = .beq 5 6 0x8000 := by decide

theorem test_decode_jalr_bits :
    decode 0b0000000_101_100_111_0000000000000000 = .jalr 4 7 := by decide

theorem test_decode_halt_bits :
    decode 0b0000000_110_0000000000000000000000 = .halt := by decide

theorem test_decode_noop_bits :
    decode 0b0000000_111_0000000000000000000000 = .noop := by decide

/-- Vectors D-2, D-3, D-8: ones in unused bits. -/
theorem test_decode_ignores_unused_bits :
    decode 0xFFFFFFFF = .noop ∧ decode 0xFF800000 = .halt ∧ decode 0x0147FFFF = .jalr 0 7 := by
  decide

/-- The words of S1, S2, S5 and program P1, from the assembler's formula (R72). -/
theorem test_encode_examples :
    encode (.add 7 7 7) = 0x003F0007 ∧ encode (.beq 0 0 0xFFFD) = 0x0100FFFD ∧
    encode (.lw 0 1 0x8000) = 0x00818000 ∧ encode (.jalr 4 7) = 0x01670000 ∧
    encode .halt = 25165824 ∧ encode .noop = 29360128 := by decide

theorem test_table_word_is_placed_and_decoded :
    decodeTableWord 32 0x01400000 = some (.jalr 0 0) ∧
    (State.reset.withFetchWord 32 0x01400000).fetchedWord = some 0x01400000 := by decide

/-! ## add and nor -/

/-- Vector A2: the sum wraps. -/
theorem test_add_wraps :
    after (fun t => (s32 (t.readReg 3), t.pc, t.icount))
      (step (placedWith 0 0x000A0003 1 0x7FFFFFFF 2 1)) = some (-2147483648, 1, 1) := by decide

/-- Vector A7: `fieldC` is 8. -/
theorem test_add_to_8_faults :
    after (fun t => (t.fault, t.pc, t.icount)) (step (placed 0 0x00000008)) =
      some (some ⟨.regIndexOutOfRange, 0, some 0x00000008, some 8⟩, 0, 0) := by decide

/-- Vector N3. -/
theorem test_nor_bits :
    after (fun t => t.readReg 3) (step (placedWith 0 0x004A0003 1 0x0F0F0F0F 2 0x00FF00FF)) =
      some 0xF000F000 := by decide

/-- Vector N4: the destination is also both sources. -/
theorem test_nor_in_place :
    after (fun t => s32 (t.readReg 3)) (step (placedWith 0 0x005B0003 3 7 0 0)) = some (-8) := by
  decide

/-! ## lw and sw -/

/-- Vector L3: the base is read before the load overwrites it. -/
theorem test_lw_over_its_base :
    after (fun t => (t.readReg 1, t.pc))
      (step ((placedWith 0 0x00890000 1 3 0 0).memWrite 3 42)) = some (42, 1) := by decide

/-- Vector L8: the address is exact and does not wrap. -/
theorem test_lw_address_is_exact :
    after State.fault (step (placedWith 0 0x008A7FFF 1 0x7FFFFFFF 0 0)) =
      some (some ⟨.memAddrOutOfRange, 0, some 0x008A7FFF, some 2147516414⟩) := by decide

/-- Vector W4: a store above the image. -/
theorem test_sw_stores :
    after (fun t => (s32 (t.mem.read 32867), t.x == (placedWith 0 0 1 100 2 0xFFFFFFF7).x))
      (step (placedWith 0 0x00CA7FFF 1 100 2 0xFFFFFFF7)) = some (-9, true) := by decide

/-- Vector W3: a negative address faults and stores nothing. -/
theorem test_sw_below_memory_faults :
    after (fun t => (t.fault, t.mem)) (step (placedWith 0 0x00C1FFFB 1 1 0 0)) =
      some (some ⟨.memAddrOutOfRange, 0, some 0x00C1FFFB, some (-5)⟩, [(0, 0x00C1FFFB)]) := by decide

/-! ## beq and jalr -/

/-- Vector B1: taken. -/
theorem test_beq_taken : after State.pc (step (placed 3 0x01010002)) = some 6 := by decide

/-- Vector B5: the target is exact, below 0. -/
theorem test_beq_far_back : after State.pc (step (placed 10 0x01008000)) = some (-32757) := by decide

/-- Vector J1. -/
theorem test_jalr_links :
    after (fun t => (t.readReg 7, t.pc)) (step (placedWith 2 0x01670000 4 5 0 0)) = some (3, 5) := by
  decide

/-- Vector J3: the link is written before the target is read, and no increment follows. -/
theorem test_jalr_same_register :
    after (fun t => (t.readReg 3, t.pc)) (step (placedWith 1 0x015B0000 3 1234 0 0)) = some (2, 2) := by
  decide

/-! ## halt, noop and the fetch -/

/-- Vector H2: a halt with ones in bits 31:25. -/
theorem test_halt_stays :
    after (fun t => (t.status, t.pc, t.icount)) (step (placed 4 0xFF800000)) =
      some (.halted, 4, 1) := by decide

/-- Vector O2. -/
theorem test_noop_from_minus_one :
    after (fun t => (t.pc, t.icount, t.x == State.reset.x)) (step (placed 0 0xFFFFFFFF)) =
      some (1, 1, true) := by decide

/-- Vectors F1 and F2. -/
theorem test_fetch_outside_memory_faults :
    after State.fault (step { State.reset with pc := -1 }) =
      some (some ⟨.pcOutOfRange, -1, none, none⟩) ∧
    after State.fault (step { State.reset with pc := 65536 }) =
      some (some ⟨.pcOutOfRange, 65536, none, none⟩) := by decide

/-- Vector F3. -/
theorem test_halted_takes_no_step :
    after State.pc (step { State.reset with status := .halted }) = none := by decide

/-- 10_state.md R14 claims that every pc that can be reached is at most `2^31 - 1`. With the largest
legal memory a taken beq at its last word goes past that (log 9). -/
theorem test_pc_above_the_claimed_bound :
    after State.pc
      (step { placed 2147483646 0x01007FFF with config := { memSize := 2147483647 } }) =
      some 2147516414 ∧ (2147516414 : Int) > 2 ^ 31 - 1 := by decide

/-! ## The toolchain -/

/-- S1 and S2: a mnemonic at column 0 is the opcode, and a label after a beq is relative. -/
theorem test_assemble_s2 :
    (assemble ['b', 'e', 'q', ' ', '0', ' ', '1', ' ', 'l', '\n',
      'l', ' ', '.', 'f', 'i', 'l', 'l', ' ', '5', '\n']).toOption = some [16842752, 5] := by decide

/-- AS1 and AS2: a literal in a beq is not relative, a label is (line 5, label at 3). -/
theorem test_beq_operands :
    (encodeLine [] 5 (splitFields ['\t', 'b', 'e', 'q', '\t', '0', '\t', '0', '\t', '3'])).toOption =
      some 16777219 ∧
    (encodeLine [(['L'], 3)] 5
      (splitFields ['\t', 'b', 'e', 'q', '\t', '0', '\t', '0', '\t', 'L'])).toOption =
      some 16842749 := by decide

/-- AS6 and AS14: the two refusals that the range and the blank line give. -/
theorem test_assembler_refusals :
    (match encodeLine [] 0 (SourceLine.ofTokens []
        [['.', 'f', 'i', 'l', 'l'], ['2', '1', '4', '7', '4', '8', '3', '6', '4', '8']]) with
      | .error e => e == .offsetRange
      | .ok _ => false) = true ∧
    (match assemble ['\n'] with
      | .error e => e == { kind := .unknownOpcode, line := 0 }
      | .ok _ => false) = true := by decide

/-- R75, R78: the text of S2's words, and reading it. -/
theorem test_load_text :
    renderImage [0xFFFFFFFF, 5] = ['-', '1', '\n', '5', '\n'] ∧
    (State.loadText { memSize := 2 } ['-', '1', '\n', '5', '\n']).map (·.mem) =
      some [(0, 0xFFFFFFFF), (1, 5)] ∧
    State.loadText { memSize := 1 } ['-', '1', '\n', '5', '\n'] = none := by decide

end Sys2Proof.Tests
end

