-- ==== Sys2Proof/Tests/Witnesses.lean ====
section
/-! SUPPORT. For every statement with hypotheses, concrete values that meet all of them together; for a
statement with several clauses, values at the ends of each clause's range. -/

namespace Sys2Proof.Tests

open Sys2Proof.Machine

/-! ## States about to run a word -/

theorem placed_runs_noop : (placed 5 0x01C00000).AboutToRun 0x01C00000 :=
  ⟨by decide, by decide, by decide, by decide⟩

/-- The last word of memory: StepRunsTheDecodedInstruction, NoopWordOnlyAdvances. -/
theorem witness_noop_at_the_last_word :
    (placed 65535 0xFFFFFFFF).AboutToRun 0xFFFFFFFF ∧ bits 0xFFFFFFFF 24 22 = 7 :=
  ⟨⟨by decide, by decide, by decide, by decide⟩, by decide⟩

theorem witness_halt_word :
    (placed 4 0xFF800000).AboutToRun 0xFF800000 ∧ bits 0xFF800000 24 22 = 6 :=
  ⟨⟨by decide, by decide, by decide, by decide⟩, by decide⟩

/-- AddWordAddsAndWraps: `fieldC` 7 and 8. -/
theorem witness_add_word :
    ((placed 0 0x00010007).AboutToRun 0x00010007 ∧ bits 0x00010007 24 22 = 0 ∧
      bits 0x00010007 15 0 = 7) ∧
    ((placed 0 0x00010008).AboutToRun 0x00010008 ∧ bits 0x00010008 24 22 = 0 ∧
      bits 0x00010008 15 0 = 8) :=
  ⟨⟨⟨by decide, by decide, by decide, by decide⟩, by decide, by decide⟩,
    ⟨by decide, by decide, by decide, by decide⟩, by decide, by decide⟩

/-- NorWordComplementsTheOr: `fieldC` 7 and 8. -/
theorem witness_nor_word :
    ((placed 0 0x00410007).AboutToRun 0x00410007 ∧ bits 0x00410007 24 22 = 1 ∧
      bits 0x00410007 15 0 = 7) ∧
    ((placed 0 0x00410008).AboutToRun 0x00410008 ∧ bits 0x00410008 24 22 = 1 ∧
      bits 0x00410008 15 0 = 8) :=
  ⟨⟨⟨by decide, by decide, by decide, by decide⟩, by decide, by decide⟩,
    ⟨by decide, by decide, by decide, by decide⟩, by decide, by decide⟩

/-- LwWordLoadsFromTheExactAddress: addresses -1, 0, `MEM_SIZE - 1` and `MEM_SIZE` of `lw 1 2 -1`. -/
theorem witness_lw_word (base : Word) (ea : Int)
    (h : (base, ea) ∈ ([(0, -1), (1, 0), (65536, 65535), (65537, 65536)] : List (Word × Int))) :
    (placedWith 0 0x008AFFFF 1 base 2 0).AboutToRun 0x008AFFFF ∧ bits 0x008AFFFF 24 22 = 2 ∧
    ea = ((placedWith 0 0x008AFFFF 1 base 2 0).readReg (regField 0x008AFFFF 21 19)).toInt +
      offsetField 0x008AFFFF := by
  simp only [List.mem_cons, List.not_mem_nil, Prod.mk.injEq, or_false] at h
  obtain ⟨rfl, rfl⟩ | ⟨rfl, rfl⟩ | ⟨rfl, rfl⟩ | ⟨rfl, rfl⟩ := h <;>
    exact ⟨⟨by decide, by decide, by decide, by decide⟩, by decide, by decide⟩

/-- SwWordStoresToTheExactAddress: the same addresses, of `sw 1 2 -1`, in a canonical memory. -/
theorem witness_sw_word (base : Word) (ea : Int)
    (h : (base, ea) ∈ ([(0, -1), (1, 0), (65536, 65535), (65537, 65536)] : List (Word × Int))) :
    (placedWith 0 0x00CAFFFF 1 base 2 9).AboutToRun 0x00CAFFFF ∧
    (placedWith 0 0x00CAFFFF 1 base 2 9).mem.wf ∧ bits 0x00CAFFFF 24 22 = 3 ∧
    ea = ((placedWith 0 0x00CAFFFF 1 base 2 9).readReg (regField 0x00CAFFFF 21 19)).toInt +
      offsetField 0x00CAFFFF := by
  simp only [List.mem_cons, List.not_mem_nil, Prod.mk.injEq, or_false] at h
  obtain ⟨rfl, rfl⟩ | ⟨rfl, rfl⟩ | ⟨rfl, rfl⟩ | ⟨rfl, rfl⟩ := h <;>
    exact ⟨⟨by decide, by decide, by decide, by decide⟩, by decide, by decide, by decide⟩

/-- BeqWordBranchesOnEquality: equal and unequal operands, and a target outside memory. -/
theorem witness_beq_word :
    ((placed 3 0x01010002).AboutToRun 0x01010002 ∧ bits 0x01010002 24 22 = 4 ∧
      (placed 3 0x01010002).readReg 0 = (placed 3 0x01010002).readReg 1) ∧
    ((placedWith 3 0x01010002 1 1 2 0).AboutToRun 0x01010002 ∧
      (placedWith 3 0x01010002 1 1 2 0).readReg 0 ≠ (placedWith 3 0x01010002 1 1 2 0).readReg 1) ∧
    (placed 0 0x0100FFFE).AboutToRun 0x0100FFFE ∧
    ∃ t, step (placed 0 0x0100FFFE) = .next t ∧ t.pc < 0 :=
  ⟨⟨⟨by decide, by decide, by decide, by decide⟩, by decide, by decide⟩,
    ⟨⟨by decide, by decide, by decide, by decide⟩, by decide⟩,
    ⟨by decide, by decide, by decide, by decide⟩, _, rfl, by decide⟩

/-- BranchToItselfHangs: `beq 0 0 -1` (vector B3). -/
theorem witness_branch_to_itself :
    (placed 1 0x0100FFFF).AboutToRun 0x0100FFFF ∧ bits 0x0100FFFF 24 22 = 4 ∧
    regField 0x0100FFFF 21 19 = regField 0x0100FFFF 18 16 ∧ bits 0x0100FFFF 15 0 = 65535 :=
  ⟨⟨by decide, by decide, by decide, by decide⟩, by decide, by decide, by decide⟩

/-- JalrWordLinksThenJumps: `regA` and `regB` the same and not, in a legal memory. -/
theorem witness_jalr_word :
    ((placed 1 0x015B0000).AboutToRun 0x015B0000 ∧ (placed 1 0x015B0000).config.Legal ∧
      bits 0x015B0000 24 22 = 5 ∧ regField 0x015B0000 21 19 = regField 0x015B0000 18 16) ∧
    ((placed 65535 0x01670000).AboutToRun 0x01670000 ∧ bits 0x01670000 24 22 = 5 ∧
      regField 0x01670000 21 19 ≠ regField 0x01670000 18 16) :=
  ⟨⟨⟨by decide, by decide, by decide, by decide⟩, by decide, by decide, by decide⟩,
    ⟨by decide, by decide, by decide, by decide⟩, by decide, by decide⟩

/-- StoreToTheNextAddressIsExecuted: `sw 0 1 1` at address 0. -/
theorem witness_store_to_the_next_address :
    (placedWith 0 0x00C10001 1 25165824 2 0).AboutToRun 0x00C10001 ∧
    (placedWith 0 0x00C10001 1 25165824 2 0).mem.wf ∧ bits 0x00C10001 24 22 = 3 ∧
    ((placedWith 0 0x00C10001 1 25165824 2 0).readReg (regField 0x00C10001 21 19)).toInt +
      offsetField 0x00C10001 = (placedWith 0 0x00C10001 1 25165824 2 0).pc + 1 ∧
    (placedWith 0 0x00C10001 1 25165824 2 0).pc + 1 < 65536 :=
  ⟨⟨by decide, by decide, by decide, by decide⟩, by decide, by decide, by decide, by decide⟩

/-! ## Encoding -/

/-- UnusedBitsNeverChangeTheInstruction: an add, a jalr and a noop that differ in unused bits. -/
theorem witness_unused_bits :
    ((0xFE010002 : Word) ≠ 0x00010002 ∧ bits 0xFE010002 24 22 = bits 0x00010002 24 22 ∧
      bits 0xFE010002 21 16 = bits 0x00010002 21 16 ∧ bits 0xFE010002 15 0 = bits 0x00010002 15 0) ∧
    ((0x0147FFFF : Word) ≠ 0x01470000 ∧ bits 0x0147FFFF 24 22 = bits 0x01470000 24 22 ∧
      bits 0x0147FFFF 21 16 = bits 0x01470000 21 16 ∧ bits 0x0147FFFF 24 22 = 5) ∧
    ((0xFFFFFFFF : Word) ≠ 0x01C00000 ∧ bits 0xFFFFFFFF 24 22 = bits 0x01C00000 24 22 ∧
      bits 0xFFFFFFFF 24 22 = 7) := by decide

/-- SignExtensionFollowsBitFifteen: both values of bit 15, at the ends. -/
theorem witness_sign_bit :
    (0x8000 : Field16).getLsbD 15 = true ∧ (0x7FFF : Field16).getLsbD 15 = false := by decide

/-! ## Steps and faults -/

/-- A next state that a step answers, for the statements about every step. -/
theorem witness_step_answers :
    step (placed 5 0x01C00000) = .next ((placed 5 0x01C00000).retire 6) := rfl

/-- A step that faults: FaultsArePreciseAndFinal, UnrecognizedOpcodeIsNeverRaised. -/
theorem witness_step_faults :
    step (placed 0 8) =
        .next ((placed 0 8).faultedWith .regIndexOutOfRange (some 8) (some 8)) ∧
      (placed 0 8).fault = none :=
  ⟨rfl, rfl⟩

/-- A step that halts: OnlyHaltHalts. -/
theorem witness_step_halts :
    step (placed 4 0xFF800000) = .next ((placed 4 0xFF800000).retireHalted 4) := rfl

/-- FetchOutsideMemoryFaults: one below and one above, and the step that raises. -/
theorem witness_pc_outside :
    ({ State.reset with pc := -1 } : State).status = .running ∧
    ({ State.reset with pc := -1 } : State).pc < 0 ∧
    ((65536 : Nat) : Int) ≤ ({ State.reset with pc := 65536 } : State).pc ∧
    step { State.reset with pc := -1 } =
      .next (({ State.reset with pc := -1 } : State).faultedWith .pcOutOfRange none none) ∧
    State.reset.fault = none :=
  ⟨rfl, by decide, by decide, rfl, rfl⟩

/-- StoppedCoreTakesNoStep: both stopped statuses; EveryRunningStepAnswersANextState: the running one. -/
theorem witness_statuses :
    ({ State.reset with status := .halted } : State).status ≠ .running ∧
    ({ State.reset with status := .faulted } : State).status ≠ .running ∧
    State.reset.status = .running := by decide

/-- EveryInstructionCompletesOnFittingOperands: every constructor, at the ends of its range. -/
theorem witness_operands_fit :
    OperandsFit (.add 0 1 7) State.reset ∧ OperandsFit (.nor 0 1 7) State.reset ∧
    OperandsFit (.lw 0 1 0) State.reset ∧ OperandsFit (.sw 0 1 0x7FFF) State.reset ∧
    OperandsFit (.lw 1 2 0xFFFF) (placedWith 0 0 1 65536 2 0) ∧
    OperandsFit (.beq 0 1 0x8000) State.reset ∧ OperandsFit (.jalr 3 3) State.reset ∧
    OperandsFit .halt State.reset ∧ OperandsFit .noop State.reset :=
  ⟨by simp only [OperandsFit]; decide, by simp only [OperandsFit]; decide, by simp only [OperandsFit]; decide,
    by simp only [OperandsFit]; decide, by simp only [OperandsFit]; decide,
    trivial, trivial, trivial, trivial⟩

/-- RegisterIndexFaultExactlyAboveSeven: the least field that faults, and an exec that raises it. -/
theorem witness_register_index_fault :
    7 < (8 : Field16).toNat ∧ (placed 0 8).fault = none ∧
    exec (.add 0 0 8) (placed 0 8) =
      .next ((placed 0 8).faultedWith .regIndexOutOfRange (some 8) (some 8)) :=
  ⟨by decide, rfl, rfl⟩

/-- MemoryFaultExactlyOutsideMemory: one below, one above, and an exec that raises it. -/
theorem witness_memory_fault :
    (-1 : Int) = (State.reset.readReg 0).toInt + (0xFFFF : Field16).toInt ∧
    (65536 : Int) = ((placedWith 0 0 1 65535 2 0).readReg 1).toInt + (1 : Field16).toInt ∧
    exec (.lw 0 1 0xFFFF) State.reset =
      .next (State.reset.faultedWith .memAddrOutOfRange (some 0) (some (-1))) :=
  ⟨by decide, by decide, rfl⟩

/-! ## Frames and whole-machine statements -/

/-- OnlyTheNamedRegisterChanges: a load that changes its register. -/
theorem witness_register_changes :
    ∃ t, exec (.jalr 0 7) State.reset = .next t ∧ t.readReg 7 ≠ State.reset.readReg 7 :=
  ⟨_, rfl, by decide⟩

/-- OnlyTheStoredWordChanges: a store and an address beside it; an instruction that is no store. -/
theorem witness_store_answers :
    (∃ t, exec (.sw 0 1 9) (placed 0 5) = .next t) ∧
    ((8 : Nat) : Int) ≠ effectiveAddress ((placed 0 5).readReg 0) 9 ∧
    (∃ t, exec .noop State.reset = .next t) ∧
    ∀ (a b : RegIndex) (off : Field16), Instr.noop ≠ .sw a b off :=
  ⟨⟨_, rfl⟩, by decide, ⟨_, rfl⟩, fun _ _ _ h => by cases h⟩

/-- RunCountsItsSteps: a run of one step that commits, and one that faults. -/
theorem witness_runs :
    (∃ t, core.run 1 (placed 5 0x01C00000) = .next t ∧ t.status ≠ .faulted) ∧
    (∃ t, core.run 1 (placed 0 8) = .next t ∧ t.status = .faulted ∧
      (placed 0 8).status ≠ .faulted) :=
  ⟨⟨_, rfl, by decide⟩, ⟨_, rfl, by decide, by decide⟩⟩

/-- LoadSeesTheStoreBeforeIt, DumpHidesStoresAboveTheImage: a store that fits, above an empty image. -/
theorem witness_store_then_load :
    (placed 0 5).mem.wf ∧ OperandsFit (.sw 0 1 9) (placed 0 5) ∧
    effectiveAddress ((placed 0 5).readReg 2) 9 = effectiveAddress ((placed 0 5).readReg 0) 9 ∧
    ((placed 0 5).nLoaded : Int) ≤ effectiveAddress ((placed 0 5).readReg 0) 9 :=
  ⟨by decide, by simp only [OperandsFit]; decide, by decide, by decide⟩

/-- CallAndReturnComeBack: a call, and the state after it as the state to return from. -/
theorem witness_call_and_return :
    State.reset.config.Legal ∧ 0 ≤ State.reset.pc ∧ State.reset.pc < 65536 ∧
    (6 : RegIndex) ≠ 7 ∧ ∃ t, exec (.jalr 4 7) State.reset = .next t ∧ t.readReg 7 = t.readReg 7 :=
  ⟨by decide, by decide, by decide, by decide, _, rfl, rfl⟩

/-- MemoriesThatReadAlikeAreEqual. -/
theorem witness_canonical_memory :
    Memory.wf [(3, 5)] ∧ ∀ a, Memory.read [(3, 5)] a = Memory.read [(3, 5)] a :=
  ⟨by decide, fun _ => rfl⟩

/-- StatusMovesOnlyFromRunning: steps that stay Running, halt and fault, a stopped core, and a load. -/
theorem witness_status :
    (∃ t, step (placed 5 0x01C00000) = .next t ∧ t.status = .running) ∧
    (∃ t, step (placed 5 0x01800000) = .next t ∧ t.status = .halted) ∧
    (∃ t, step (placed 5 0x00000008) = .next t ∧ t.status = .faulted) ∧
    (placed 5 0x00000008).fault = none ∧
    { State.reset with status := .halted }.status ≠ .running ∧
    (State.load Config.standard [0x01800000]).isSome = true :=
  ⟨⟨_, rfl, rfl⟩, ⟨_, rfl, rfl⟩, ⟨_, rfl, rfl⟩, rfl, nofun, rfl⟩

/-! ## The invariant -/

/-- EveryStepKeepsTheInvariant, PcStaysASignedWordInSmallerMemories: a state with the invariant that
takes a step, in a memory that is small enough. -/
theorem witness_invariant_and_step :
    (placed 5 0x01C00000).Inv ∧ (placed 5 0x01C00000).config.memSize + 32767 ≤ 2 ^ 31 - 1 ∧
    step (placed 5 0x01C00000) = .next ((placed 5 0x01C00000).retire 6) :=
  ⟨⟨by decide, by decide, by decide, by decide, by decide, by decide, fun _ => rfl,
    nofun, nofun⟩, by decide, rfl⟩

/-- EveryLoadHasTheInvariant, LoadGivesTheResetState: the longest image that fits, and one word more. -/
theorem witness_load :
    Config.Legal { memSize := 2 } ∧ (State.load { memSize := 2 } [5, 6]).isSome = true ∧
    [(5 : Word), 6].length ≤ 2 ∧ 2 < [(5 : Word), 6, 7].length := by decide

/-- EveryRunEndsWithItsReason: an image that halts and one that faults, each in one step from its load,
and one that still runs after a step. -/
theorem witness_run_ends :
    (∃ s t, State.load Config.standard [0x01800000] = some s ∧ Reaches s t ∧ t.exitCode = some 0) ∧
    (∃ s t, State.load Config.standard [0x00000008] = some s ∧ Reaches s t ∧ t.exitCode = some 1) ∧
    (∃ s t, State.load Config.standard [0x0100FFFF] = some s ∧ Reaches s t ∧ t.exitCode = none ∧
      t.icount = 1) ∧
    Config.standard.Legal :=
  ⟨⟨_, _, rfl, .tail _ _ _ (.refl _) rfl, rfl⟩, ⟨_, _, rfl, .tail _ _ _ (.refl _) rfl, rfl⟩,
    ⟨_, _, rfl, .tail _ _ _ (.refl _) rfl, rfl, rfl⟩, by decide⟩

/-! ## The toolchain -/

/-- MalformedTextIsRefused: a line that is no number, and one that is out of range by one. -/
theorem witness_malformed_text :
    ['x'] ∈ splitLines ['x', '\n'] ∧ parseDecimal ['x'] = none ∧
    parseDecimal ['2', '1', '4', '7', '4', '8', '3', '6', '4', '8'] = some 2147483648 ∧
    parseDecimal ['-', '2', '1', '4', '7', '4', '8', '3', '6', '4', '9'] = some (-2147483649) := by
  decide

/-- The statements about programs that assemble: a label, a reference to it, every line a word. -/
theorem witness_assembled_program :
    (assemble ['a', ' ', 'l', 'w', ' ', '0', ' ', '7', ' ', 'a', '\n', ' ', 'h', 'a', 'l', 't']).toOption =
      some [0x00870000, 0x01800000] ∧
    ((splitLines ['a', ' ', 'l', 'w', ' ', '0', ' ', '7', ' ', 'a', '\n', ' ', 'h', 'a', 'l', 't']).map
      splitFields).map (·.label) = [['a'], []] ∧
    [(0x00870000 : Word), 0x01800000].length ≤ Config.standard.memSize := by decide

/-- OffsetsAreStoredExactlyInRange: the ends of the range and the numbers beside them. -/
theorem witness_offsets :
    ((-32768 : Int) ≤ -32768 ∧ (-32768 : Int) ≤ 32767) ∧ (-32768 : Int) ≤ 32767 ∧
    (-32769 : Int) < -32768 ∧ (32767 : Int) < 32768 := by decide

/-- RegisterOperandsEncodeExactlyInRange: 7, 8 and -1, and a token that is no number. -/
theorem witness_register_operands :
    parseDecimal ['7'] = some (((7 : RegIndex).val : Nat) : Int) ∧ parseDecimal ['8'] = some 8 ∧
    parseDecimal ['-', '1'] = some (-1) ∧ parseDecimal ['r', '1'] = none := by decide

end Sys2Proof.Tests
end

section
/-! PROOFS. Sign extension (00_scope.md R6), and the invariant: each operation on the state keeps it,
so each instruction does, so each step does. -/

namespace Sys2Proof.Machine

/-! ## Sign extension -/

theorem sext16_of_bit15_set {f : Field16} (h : f.getLsbD 15 = true) :
    sext16 f = (f.toNat : Int) - 65536 := by
  rw [sext16, h, if_pos rfl]

theorem sext16_of_bit15_clear {f : Field16} (h : f.getLsbD 15 = false) : sext16 f = f.toNat := by
  rw [sext16, h, if_neg Bool.false_ne_true]

theorem sext16_sub_toNat_mod (f : Field16) : (sext16 f - f.toNat) % 65536 = 0 := by
  cases h : f.getLsbD 15 with
  | true => rw [sext16_of_bit15_set h]; omega
  | false => rw [sext16_of_bit15_clear h]; omega

/-- Settles O6, by the value of bit 15; the range is that of the two's-complement reading. -/
theorem signExtensionFollowsBitFifteen : Obligations.SignExtensionFollowsBitFifteen := fun f =>
  ⟨sext16_of_bit15_set, sext16_of_bit15_clear, sext16_low f, sext16_high f, sext16_sub_toNat_mod f⟩

/-! ## Where a pc can go -/

/-- The bounds that `State.Inv` puts on the pc, for a number `v` that an instruction jumps to (R87, R90;
log 9). -/
def State.PcFits (s : State) (v : Int) : Prop :=
  -2 ^ 31 ≤ v ∧ (v ≤ 2 ^ 31 - 1 ∨ v ≤ s.config.memSize + 32767)

theorem State.pcFits_s32 (s : State) (v : Word) : s.PcFits (s32 v) :=
  ⟨s32_low v, .inl (s32_high v)⟩

/-- A taken beq leaves the end of memory behind by at most 32767 words (R87). -/
theorem State.pcFits_branchTarget {s : State} {w : Word} (fetched : s.fetchedWord = some w)
    (offset : Field16) : s.PcFits (branchTarget s.pc offset) := by
  obtain ⟨low, high, -⟩ := fetchedWord_cases fetched
  have offsetLow := sext16_low offset
  have offsetHigh := sext16_high offset
  unfold State.PcFits branchTarget
  omega

theorem State.pcFits_succ {s : State} {w : Word} (fetched : s.fetchedWord = some w) :
    s.PcFits (s.pc + 1) := by
  obtain ⟨low, high, -⟩ := fetchedWord_cases fetched
  unfold State.PcFits
  omega

/-! ## Each operation on a running state keeps the invariant -/

/-- Raising a fault changes nothing that the explanation of a record looks at (R106). -/
@[simp] theorem State.explainedBy_raise (s : State) (code : FaultCode) (addr : Option Int)
    (r : FaultRecord) : (s.raise code addr).ExplainedBy r ↔ s.ExplainedBy r := Iff.rfl

theorem State.Inv.raise {s : State} (inv : s.Inv) {code : FaultCode} {addr : Option Int}
    (why : s.ExplainedBy { code := code, pc := s.pc, word := s.fetchedWord, addr := addr }) :
    (s.raise code addr).Inv where
  configLegal := inv.configLegal
  loadedFits := inv.loadedFits
  memoryWf := inv.memoryWf
  memoryFits := inv.memoryFits
  pcLow := inv.pcLow
  pcHigh := inv.pcHigh
  noRecord := by simp
  record := by simpa using why
  haltedAt := by simp

section Running

variable {s : State} (inv : s.Inv) (running : s.status = .running)
include inv running

theorem State.Inv.retire {nextPc : Int} (fits : s.PcFits nextPc) : (s.retire nextPc).Inv where
  configLegal := inv.configLegal
  loadedFits := inv.loadedFits
  memoryWf := inv.memoryWf
  memoryFits := inv.memoryFits
  pcLow := fits.1
  pcHigh := fits.2
  noRecord := inv.noRecord
  record := by simp [running]
  haltedAt := by simp [running]

theorem State.Inv.writeReg (i : RegIndex) (v : Word) : (s.writeReg i v).Inv where
  configLegal := inv.configLegal
  loadedFits := inv.loadedFits
  memoryWf := inv.memoryWf
  memoryFits := inv.memoryFits
  pcLow := inv.pcLow
  pcHigh := inv.pcHigh
  noRecord := inv.noRecord
  record := by simp [running]
  haltedAt := by simp [running]

theorem State.Inv.memWrite {a : Int} (ha : s.inMemory a = true) (v : Word) :
    (s.memWrite a v).Inv where
  configLegal := inv.configLegal
  loadedFits := inv.loadedFits
  memoryWf := Memory.write_wf inv.memoryWf a.toNat v
  memoryFits := by
    intro c hc
    obtain ⟨low, high⟩ := (s.inMemory_iff a).mp ha
    rcases Memory.mem_write hc with ⟨rfl, -⟩ | old
    · simp only [State.memWrite_config]
      omega
    · exact inv.memoryFits c old
  pcLow := inv.pcLow
  pcHigh := inv.pcHigh
  noRecord := inv.noRecord
  record := by simp [running]
  haltedAt := by simp [running]

/-- Only a halt may stop the core: the pc stays, so the halt is still the word there (R95). -/
theorem State.Inv.retireHalted {w : Word} (fetched : s.fetchedWord = some w)
    (halts : decode w = .halt) : (s.retireHalted s.pc).Inv where
  configLegal := inv.configLegal
  loadedFits := inv.loadedFits
  memoryWf := inv.memoryWf
  memoryFits := inv.memoryFits
  pcLow := inv.pcLow
  pcHigh := inv.pcHigh
  noRecord := fun _ => inv.noRecord (by simp [running])
  record := by simp
  haltedAt := fun _ => ⟨w, fetched, halts⟩

/-! ## Each instruction, run as the fetched word, keeps the invariant -/

variable {w : Word} (fetched : s.fetchedWord = some w)
include fetched

theorem registerOp_keeps_inv {f : Word → Word → Word} {regA regB : RegIndex} {fieldC : Field16}
    {t : State} (decoded : decode w = .add regA regB fieldC ∨ decode w = .nor regA regB fieldC)
    (h : registerOp f regA regB fieldC s = .next t) : t.Inv := by
  rcases registerOp_cases h with ⟨above, rfl⟩ | ⟨d, -, rfl⟩
  · exact inv.raise ⟨rfl, rfl, w, regA, regB, fieldC, fetched, decoded, rfl, above⟩
  · exact (inv.writeReg running _ _).retire running (s.pcFits_succ fetched)

omit running in
/-- lw and sw: the fetched word explains the fault; what the access keeps is each instruction's own. -/
theorem memoryOp_keeps_inv {access : Int → State} {regA regB : RegIndex} {offset : Field16}
    {t : State} (decoded : decode w = .lw regA regB offset ∨ decode w = .sw regA regB offset)
    (accessed : ∀ ea : Int, s.inMemory ea = true → ((access ea).retire (s.pc + 1)).Inv)
    (h : memoryOp access regA offset s = .next t) : t.Inv := by
  rcases memoryOp_cases h with ⟨outside, rfl⟩ | ⟨inside, rfl⟩
  · exact inv.raise ⟨rfl, rfl, w, regA, regB, offset, fetched, decoded, rfl, outside⟩
  · exact accessed _ inside

theorem execBeq_keeps_inv {regA regB : RegIndex} {offset : Field16} {t : State}
    (h : execBeq regA regB offset s = .next t) : t.Inv := by
  rcases execBeq_cases h with ⟨-, rfl⟩ | ⟨-, rfl⟩
  · exact inv.retire running (s.pcFits_branchTarget fetched offset)
  · exact inv.retire running (s.pcFits_succ fetched)

theorem exec_keeps_inv {t : State} (h : exec (decode w) s = .next t) : t.Inv := by
  have next := s.pcFits_succ fetched
  revert h
  cases decoded : decode w with
  | add => exact registerOp_keeps_inv inv running fetched (.inl decoded)
  | nor => exact registerOp_keeps_inv inv running fetched (.inr decoded)
  | lw =>
    exact memoryOp_keeps_inv inv fetched (.inl decoded) fun _ _ =>
      (inv.writeReg running _ _).retire running next
  | sw =>
    exact memoryOp_keeps_inv inv fetched (.inr decoded) fun _ inside =>
      (inv.memWrite running inside _).retire running next
  | beq => exact execBeq_keeps_inv inv running fetched
  | jalr =>
    intro h
    rw [execJalr_cases h]
    exact (inv.writeReg running _ _).retire running (s.pcFits_s32 _)
  | halt =>
    intro h
    rw [execHalt_cases h]
    exact inv.retireHalted running fetched decoded
  | noop =>
    intro h
    rw [execNoop_cases h]
    exact inv.retire running next

end Running

theorem step_keeps_inv {s t : State} (inv : s.Inv) (h : step s = .next t) : t.Inv := by
  obtain ⟨running, ⟨noFetch, rfl⟩ | ⟨w, fetched, ran⟩⟩ := step_cases h
  · exact inv.raise ⟨rfl, rfl, s.fetchedWord_eq_none_iff.mp noFetch, rfl⟩
  · exact exec_keeps_inv inv running fetched ran

/-- Settles O38, by the fetch and then the constructors of the decoded instruction. -/
theorem everyStepKeepsTheInvariant : Obligations.EveryStepKeepsTheInvariant :=
  fun _ _ => step_keeps_inv

end Sys2Proof.Machine
end

section
/-! PROOFS. The state and its step (10_state.md): the word at the pc, loads, what an instruction does to a
state and what it does not look at, and from these the statements about steps and runs. -/

namespace Sys2Proof

/-! ## The opcode of a decoded word (30_encoding.md R54) -/

@[simp] theorem Fields.opcode_instr (d : Fields) : d.instr.opcode = d.op := by
  obtain ⟨op, fieldA, fieldB, fieldC⟩ := d
  fin_cases op <;> rfl

theorem Instr.eq_halt_of_opcode {i : Instr} (h : i.opcode = 6) : i = .halt := by
  cases i <;> simp [Instr.opcode] at h ⊢

end Sys2Proof

namespace Sys2Proof.Machine

theorem opcode_decode_val (w : Word) : (decode w).opcode.val = bits w 24 22 := by
  rw [decode, Fields.opcode_instr, fieldsOf, field3_val]
  rfl

/-- A word decodes to halt exactly when its opcode bits are 6 (43_no_operand_class.md R95). -/
theorem decode_eq_halt_iff {w : Word} : decode w = .halt ↔ bits w 24 22 = 6 := by
  rw [← opcode_decode_val]
  exact ⟨fun h => by rw [h]; rfl, fun h => Instr.eq_halt_of_opcode (Fin.ext h)⟩

/-! ## Which states take a step, and what it runs (R18, R24) -/

theorem aboutToRun_iff {s : State} {w : Word} :
    s.AboutToRun w ↔ s.status = .running ∧ s.fetchedWord = some w := by
  refine ⟨fun ⟨running, low, high, at_pc⟩ => ⟨running, ?_⟩,
    fun ⟨running, fetched⟩ => ⟨running, fetchedWord_cases fetched⟩⟩
  rw [s.fetchedWord_of_inMemory ((s.inMemory_iff s.pc).mpr ⟨low, high⟩), State.memRead, at_pc]

theorem step_of_fetched {s : State} {w : Word} (running : s.status = .running)
    (fetched : s.fetchedWord = some w) : step s = exec (decode w) s := by
  rw [step, running, fetched]

theorem step_of_no_fetch {s : State} (running : s.status = .running)
    (noFetch : s.fetchedWord = none) : step s = .next (s.raise .pcOutOfRange none) := by
  rw [step, running, noFetch]

theorem step_ne_next_of_stopped {s : State} (stopped : s.status ≠ .running) (t : State) :
    step s ≠ .next t := fun h => stopped (step_cases h).1

theorem runFor_of_stopped {s : State} (stopped : s.status ≠ .running) (n : Nat) : runFor n s = s := by
  cases n with
  | zero => rfl
  | succ n =>
    rw [runFor]
    split
    · exact absurd ‹_› (step_ne_next_of_stopped stopped _)
    · rfl
    · rfl

/-- Settles O7: the word at the pc is the fetched word. -/
theorem stepRunsTheDecodedInstruction : Obligations.StepRunsTheDecodedInstruction := fun _ _ about =>
  step_of_fetched (aboutToRun_iff.mp about).1 (aboutToRun_iff.mp about).2

/-- Settles O9. -/
theorem stoppedCoreTakesNoStep : Obligations.StoppedCoreTakesNoStep := fun _ stopped =>
  ⟨step_ne_next_of_stopped stopped, runFor_of_stopped stopped⟩

/-! ## Loads (R26, R120) -/

/-- A load is refused, or it is the reset state with the size, the image and its length put in. -/
theorem load_eq_some_iff {c : Config} {image : List Word} {s : State} :
    State.load c image = some s ↔ image.length ≤ c.memSize ∧
      s = { State.reset with config := c, nLoaded := image.length, mem := imageCells 0 image } := by
  rw [State.load]
  split
  · exact ⟨fun h => ⟨‹_›, (Option.some.inj h).symm⟩, fun ⟨_, h⟩ => h ▸ rfl⟩
  · exact ⟨nofun, fun ⟨fits, _⟩ => absurd fits ‹_›⟩

theorem load_of_too_long {c : Config} {image : List Word} (h : c.memSize < image.length) :
    State.load c image = none := by
  rw [State.load, if_neg (by omega)]

theorem load_status {c : Config} {image : List Word} {s : State} (h : State.load c image = some s) :
    s.status = .running := by
  obtain ⟨-, rfl⟩ := load_eq_some_iff.mp h
  rfl

theorem State.readReg_reset (r : RegIndex) : State.reset.readReg r = 0 := by
  simp [State.readReg, State.reset]

theorem read_image (image : List Word) (k : Nat) :
    Memory.read (imageCells 0 image) k = image.getD k Memory.unlisted := by
  simpa using read_imageCells 0 image k

/-- Settles O41. -/
theorem loadGivesTheResetState : Obligations.LoadGivesTheResetState := by
  refine fun c image => ⟨load_of_too_long, fun fits =>
    ⟨_, load_eq_some_iff.mpr ⟨fits, rfl⟩, rfl, rfl, rfl, State.readReg_reset, ?_, ?_, rfl, rfl, rfl⟩⟩
  · intro k w listed
    simp [read_image, listed]
  · intro k above
    simp [read_image, above, Memory.unlisted]

theorem load_inv {c : Config} {image : List Word} {s : State} (legal : c.Legal)
    (h : State.load c image = some s) : s.Inv := by
  obtain ⟨fits, rfl⟩ := load_eq_some_iff.mp h
  exact {
    configLegal := legal
    loadedFits := fits
    memoryWf := imageCells_wf 0 image
    memoryFits := fun c hc => by
      obtain ⟨-, inImage, -⟩ := mem_imageCells hc
      exact Nat.lt_of_lt_of_le (by simpa using inImage) fits
    pcLow := show -2 ^ 31 ≤ (0 : Int) by decide
    pcHigh := .inl (show (0 : Int) ≤ 2 ^ 31 - 1 by decide)
    noRecord := fun _ => rfl
    record := nofun
    haltedAt := nofun }

/-- Settles O37: the cells of an image are canonical and end where the image does. -/
theorem everyLoadHasTheInvariant : Obligations.EveryLoadHasTheInvariant := fun _ _ _ => load_inv

/-- Settles O36: reset is the load of the empty image. -/
theorem resetHasTheInvariant : Obligations.ResetHasTheInvariant :=
  load_inv (by decide) load_nil_eq_reset

/-! ## The effect of an instruction

Every instruction has one of three effects. Which one, and with what values, is settled by the pc, the
registers, the memory and MEM_SIZE: the status, `icount` and `N_LOADED` are not looked at. -/

/-- What an instruction does to a state. -/
inductive Effect where
  /-- It raises a fault (60_exceptions.md R100). -/
  | raises (code : FaultCode) (addr : Option Int)
  /-- It commits with these registers and this memory, and the core goes on at `nextPc` (R24). -/
  | commits (x : Vector Word 8) (mem : Memory) (nextPc : Int)
  /-- It commits and the core stops where it is (43_no_operand_class.md R95). -/
  | halts

/-- The state after the effect. -/
def Effect.apply : Effect → State → State
  | .raises code addr, s => s.raise code addr
  | .commits x mem nextPc, s => { s with x := x, mem := mem }.retire nextPc
  | .halts, s => s.retireHalted s.pc

/-- `s` with another status, count and image length. -/
def State.withBooks (s : State) (status : Status) (count loaded : Nat) : State :=
  { s with status := status, icount := count, nLoaded := loaded }

/-- Run in `s`, `act` has the effect `e`, and so it has in every state that differs from `s` in status,
count and image length alone. -/
def HasEffect (act : State → Host.Outcome State Fault Refusal) (s : State) (e : Effect) : Prop :=
  ∀ (status : Status) (count loaded : Nat),
    act (s.withBooks status count loaded) = .next (e.apply (s.withBooks status count loaded))

theorem HasEffect.here {act : State → Host.Outcome State Fault Refusal} {s : State} {e : Effect}
    (h : HasEffect act s e) : act s = .next (e.apply s) := h s.status s.icount s.nLoaded

@[simp] theorem Effect.config_apply (e : Effect) (s : State) : (e.apply s).config = s.config := by
  cases e <;> rfl

@[simp] theorem Effect.nLoaded_apply (e : Effect) (s : State) : (e.apply s).nLoaded = s.nLoaded := by
  cases e <;> rfl

theorem Effect.sameLaunch_apply (e : Effect) (s : State) : SameLaunch s (e.apply s) :=
  ⟨e.config_apply s, e.nLoaded_apply s⟩

/-- An effect reads neither `icount` nor `N_LOADED`: it counts one more or not at all (R10, R19). -/
theorem Effect.apply_withBooks (e : Effect) (s : State) (count loaded : Nat) :
    e.apply (s.withBooks s.status count loaded) =
      { e.apply s with icount := count + ((e.apply s).icount - s.icount), nLoaded := loaded } := by
  cases e with
  | raises => simp only [Effect.apply, State.raise_icount, Nat.sub_self]; rfl
  | commits => simp only [Effect.apply, State.retire_icount, Nat.add_sub_cancel_left]; rfl
  | halts => simp only [Effect.apply, State.retireHalted_icount, Nat.add_sub_cancel_left]; rfl

section Raises

/-- The effect is a fault. -/
def Effect.Raises : Effect → Prop
  | .raises _ _ => True
  | .commits _ _ _ => False
  | .halts => False

variable {e : Effect} (s : State)

theorem Effect.icount_apply_of_raises (h : e.Raises) : (e.apply s).icount = s.icount := by
  cases e with
  | raises => rfl
  | commits | halts => exact h.elim

theorem Effect.icount_apply (h : ¬ e.Raises) : (e.apply s).icount = s.icount + 1 := by
  cases e with
  | raises => exact absurd trivial h
  | commits | halts => rfl

theorem Effect.fault_apply (h : ¬ e.Raises) : (e.apply s).fault = s.fault := by
  cases e with
  | raises => exact absurd trivial h
  | commits | halts => rfl

theorem Effect.status_apply (raises : ¬ e.Raises) (halts : e ≠ .halts) :
    (e.apply s).status = s.status := by
  cases e with
  | raises => exact absurd trivial raises
  | commits => rfl
  | halts => exact absurd rfl halts

end Raises

section Running

/-! What an effect makes of a running core: each status has its own kind of effect. -/

variable {s : State} (running : s.status = .running) (e : Effect)
include running

theorem Effect.status_apply_eq_halted_iff : (e.apply s).status = .halted ↔ e = .halts := by
  cases e <;> simp [Effect.apply, running]

theorem Effect.status_apply_eq_faulted_iff : (e.apply s).status = .faulted ↔ e.Raises := by
  cases e <;> simp [Effect.apply, Effect.Raises, running]

omit running in
theorem Effect.fault_apply_ne_none_iff (noRecord : s.fault = none) :
    (e.apply s).fault ≠ none ↔ e.Raises := by
  cases e <;> simp [Effect.apply, Effect.Raises, noRecord]

end Running

/-! ### Each instruction's effect -/

section Effects

variable {regA regB : RegIndex} {offset fieldC : Field16} {s : State}

theorem registerOp_commits (f : Word → Word → Word) (fits : fieldC.toNat ≤ 7) :
    HasEffect (registerOp f regA regB fieldC) s
      (.commits (s.x.set fieldC.toNat (f (s.readReg regA) (s.readReg regB))) s.mem (s.pc + 1)) := by
  intro _ _ _
  rw [registerOp, destRegister_of_le fieldC fits]
  rfl

theorem registerOp_raises (f : Word → Word → Word) (above : ¬ fieldC.toNat ≤ 7) :
    HasEffect (registerOp f regA regB fieldC) s
      (.raises .regIndexOutOfRange (some (fieldC.toNat : Int))) := by
  intro _ _ _
  rw [registerOp, destRegister_of_gt fieldC (by omega)]
  rfl

theorem memoryOp_of_inMemory (access : Int → State)
    (inside : s.inMemory (effectiveAddress (s.readReg regA) offset) = true) :
    memoryOp access regA offset s =
      .next ((access (effectiveAddress (s.readReg regA) offset)).retire (s.pc + 1)) :=
  if_pos inside

theorem memoryOp_of_not_inMemory (access : Int → State)
    (outside : ¬ s.inMemory (effectiveAddress (s.readReg regA) offset) = true) :
    memoryOp access regA offset s =
      .next (s.raise .memAddrOutOfRange (some (effectiveAddress (s.readReg regA) offset))) :=
  if_neg outside

theorem execLw_commits (inside : s.inMemory (effectiveAddress (s.readReg regA) offset) = true) :
    HasEffect (execLw regA regB offset) s
      (.commits (s.x.set regB.val (s.memRead (effectiveAddress (s.readReg regA) offset))) s.mem
        (s.pc + 1)) :=
  fun _ _ _ => memoryOp_of_inMemory _ inside

theorem execSw_commits (inside : s.inMemory (effectiveAddress (s.readReg regA) offset) = true) :
    HasEffect (execSw regA regB offset) s
      (.commits s.x
        (s.mem.write (effectiveAddress (s.readReg regA) offset).toNat (s.readReg regB))
        (s.pc + 1)) :=
  fun _ _ _ => memoryOp_of_inMemory _ inside

theorem execLw_raises (outside : ¬ s.inMemory (effectiveAddress (s.readReg regA) offset) = true) :
    HasEffect (execLw regA regB offset) s
      (.raises .memAddrOutOfRange (some (effectiveAddress (s.readReg regA) offset))) :=
  fun _ _ _ => memoryOp_of_not_inMemory _ outside

theorem execSw_raises (outside : ¬ s.inMemory (effectiveAddress (s.readReg regA) offset) = true) :
    HasEffect (execSw regA regB offset) s
      (.raises .memAddrOutOfRange (some (effectiveAddress (s.readReg regA) offset))) :=
  fun _ _ _ => memoryOp_of_not_inMemory _ outside

theorem execBeq_commits : HasEffect (execBeq regA regB offset) s
    (.commits s.x s.mem
      (if wordsEqual (s.readReg regA) (s.readReg regB) then branchTarget s.pc offset
      else s.pc + 1)) := by
  intro status count loaded
  change (if wordsEqual (s.readReg regA) (s.readReg regB) then _ else _) = _
  split <;> rfl

theorem execJalr_commits : HasEffect (execJalr regA regB) s
    (.commits (s.x.set regB.val (bits32 (s.pc + 1))) s.mem
      (s32 ((s.writeReg regB (bits32 (s.pc + 1))).readReg regA))) :=
  fun _ _ _ => rfl

theorem execHalt_halts : HasEffect execHalt s .halts := fun _ _ _ => rfl

theorem execNoop_commits : HasEffect execNoop s (.commits s.x s.mem (s.pc + 1)) := fun _ _ _ => rfl

end Effects

/-- `e` is what the instruction `i` does in `s`: a fault exactly when its operands do not fit, a stop
exactly when it is halt. -/
structure EffectOf (i : Instr) (s : State) (e : Effect) : Prop where
  hasEffect : HasEffect (exec i) s e
  raises_iff : e.Raises ↔ ¬ OperandsFit i s
  halts_iff : e = .halts ↔ i = .halt

theorem EffectOf.commits {i : Instr} {s : State} (fits : OperandsFit i s) (notHalt : i ≠ .halt)
    {x : Vector Word 8} {mem : Memory} {nextPc : Int}
    (h : HasEffect (exec i) s (.commits x mem nextPc)) : EffectOf i s (.commits x mem nextPc) :=
  ⟨h, by simp [Effect.Raises, fits], by simp [notHalt]⟩

theorem EffectOf.raises {i : Instr} {s : State} (unfit : ¬ OperandsFit i s) (notHalt : i ≠ .halt)
    {code : FaultCode} {addr : Option Int} (h : HasEffect (exec i) s (.raises code addr)) :
    EffectOf i s (.raises code addr) :=
  ⟨h, by simp [Effect.Raises, unfit], by simp [notHalt]⟩

theorem exists_effectOf (i : Instr) (s : State) : ∃ e : Effect, EffectOf i s e := by
  by_cases fits : OperandsFit i s
  · cases i with
    | add => exact ⟨_, .commits fits nofun (registerOp_commits addWord fits)⟩
    | nor => exact ⟨_, .commits fits nofun (registerOp_commits norWord fits)⟩
    | lw => exact ⟨_, .commits fits nofun (execLw_commits fits)⟩
    | sw => exact ⟨_, .commits fits nofun (execSw_commits fits)⟩
    | beq => exact ⟨_, .commits fits nofun execBeq_commits⟩
    | jalr => exact ⟨_, .commits fits nofun execJalr_commits⟩
    | halt => exact ⟨_, execHalt_halts, by simp [Effect.Raises, fits], by simp⟩
    | noop => exact ⟨_, .commits fits nofun execNoop_commits⟩
  · cases i with
    | add => exact ⟨_, .raises fits nofun (registerOp_raises addWord fits)⟩
    | nor => exact ⟨_, .raises fits nofun (registerOp_raises norWord fits)⟩
    | lw => exact ⟨_, .raises fits nofun (execLw_raises fits)⟩
    | sw => exact ⟨_, .raises fits nofun (execSw_raises fits)⟩
    | beq | jalr | halt | noop => exact absurd trivial fits

/-- Settles O11: an effect that is no fault commits. -/
theorem everyInstructionCompletesOnFittingOperands :
    Obligations.EveryInstructionCompletesOnFittingOperands := by
  intro i s fits
  obtain ⟨e, hasEffect, raises_iff, halts_iff⟩ := exists_effectOf i s
  have commits : ¬ e.Raises := fun raises => raises_iff.mp raises fits
  refine ⟨e.apply s, hasEffect.here, e.icount_apply s commits, e.sameLaunch_apply s,
    e.fault_apply s commits, fun halt => ?_, fun notHalt => ?_⟩
  · rw [halts_iff.mpr halt]
    rfl
  · exact e.status_apply s commits fun halts => notHalt (halts_iff.mp halts)

/-! ### Each step's effect -/

/-- A step runs from status Running, and has an effect: a stop exactly when it runs a halt, and the same
whatever `icount` and `N_LOADED` are. -/
theorem step_effect {s t : State} (h : step s = .next t) :
    s.status = .running ∧ ∃ e : Effect, t = e.apply s ∧
      (e = .halts ↔ ∃ w : Word, s.AboutToRun w ∧ decode w = .halt) ∧
      ∀ count loaded : Nat, step (s.withBooks s.status count loaded) =
        .next (e.apply (s.withBooks s.status count loaded)) := by
  obtain ⟨running, ⟨noFetch, rfl⟩ | ⟨w, fetched, ran⟩⟩ := step_cases h
  · refine ⟨running, .raises .pcOutOfRange none, rfl, ?_, fun _ _ => step_of_no_fetch running noFetch⟩
    simp [aboutToRun_iff, noFetch]
  · obtain ⟨e, hasEffect, -, halts_iff⟩ := exists_effectOf (decode w) s
    have result : t = e.apply s := by simpa using ran.symm.trans hasEffect.here
    refine ⟨running, e, result, ?_, fun count loaded => ?_⟩
    · simp [aboutToRun_iff, running, fetched, halts_iff]
    · exact (step_of_fetched (s := s.withBooks s.status count loaded) running fetched).trans
        (hasEffect s.status count loaded)

theorem step_status_eq_halted_iff {s t : State} (h : step s = .next t) :
    t.status = .halted ↔ ∃ w : Word, s.AboutToRun w ∧ decode w = .halt := by
  obtain ⟨running, e, rfl, halts_iff, -⟩ := step_effect h
  rw [e.status_apply_eq_halted_iff running, halts_iff]

/-- A step writes a record exactly when it ends Faulted (R21). -/
theorem step_status_eq_faulted_iff {s t : State} (h : step s = .next t) (noRecord : s.fault = none) :
    t.status = .faulted ↔ t.fault ≠ none := by
  obtain ⟨running, e, rfl, -, -⟩ := step_effect h
  rw [e.status_apply_eq_faulted_iff running, e.fault_apply_ne_none_iff noRecord]

/-- A step counts itself unless it faults (R19). -/
theorem step_icount {s t : State} (h : step s = .next t) :
    t.icount = if t.status = .faulted then s.icount else s.icount + 1 := by
  obtain ⟨running, e, rfl, -, -⟩ := step_effect h
  have faulted_iff := e.status_apply_eq_faulted_iff running
  split
  · exact e.icount_apply_of_raises s (faulted_iff.mp ‹_›)
  · exact e.icount_apply s fun raises => ‹¬ _› (faulted_iff.mpr raises)

theorem step_config {s t : State} (h : step s = .next t) : t.config = s.config := by
  obtain ⟨-, e, rfl, -, -⟩ := step_effect h
  exact e.config_apply s

/-- Settles O10: a fault of the fetch is a next state, and so is every instruction's effect. -/
theorem everyRunningStepAnswersANextState : Obligations.EveryRunningStepAnswersANextState := by
  intro s running
  cases fetched : s.fetchedWord with
  | none => exact ⟨_, step_of_no_fetch running fetched, rfl, rfl⟩
  | some w =>
    obtain ⟨e, hasEffect, -, -⟩ := exists_effectOf (decode w) s
    exact ⟨e.apply s, (step_of_fetched running fetched).trans hasEffect.here, e.sameLaunch_apply s⟩

/-- Settles O27. -/
theorem onlyHaltHalts : Obligations.OnlyHaltHalts := by
  intro s t h
  simp only [step_status_eq_halted_iff h, decode_eq_halt_iff]

/-- Settles O30: the effect is the same, and it counts one more or not at all. -/
theorem counterAndImageLengthAreUnobservable : Obligations.CounterAndImageLengthAreUnobservable := by
  intro s t count loaded h
  obtain ⟨-, e, rfl, -, alike⟩ := step_effect h
  rw [← e.apply_withBooks s count loaded]
  exact alike count loaded

/-- Settles O51: the status is what the effect makes of it, and no effect depends on it. -/
theorem statusMovesOnlyFromRunning : Obligations.StatusMovesOnlyFromRunning := by
  refine ⟨fun s => ⟨stepRunsTheDecodedInstruction s, fun t h =>
    ⟨step_status_eq_halted_iff h, step_status_eq_faulted_iff h⟩, step_ne_next_of_stopped,
    fun i t ran => ?_⟩, fun _ _ _ => load_status⟩
  obtain ⟨e, hasEffect, -, -⟩ := exists_effectOf i s
  obtain rfl : t = e.apply s := by simpa using ran.symm.trans hasEffect.here
  refine ⟨fun running => ?_, fun other => ⟨_, hasEffect other s.icount s.nLoaded, ?_⟩⟩
  · cases e with
    | raises | halts => cases running
    | commits => exact running
  · cases e <;> rfl

/-- Settles O39: the bound of the invariant, for a memory that ends early enough. -/
theorem pcStaysASignedWordInSmallerMemories : Obligations.PcStaysASignedWordInSmallerMemories := by
  intro s t inv small h
  have kept := step_keeps_inv inv h
  have high := kept.pcHigh
  rw [step_config h] at high
  exact ⟨kept.pcLow, by omega⟩

/-! ## What an instruction changes (R12, R27) -/

theorem State.eq_of_readReg_writeReg_ne {s : State} {d r : RegIndex} {v : Word}
    (changed : (s.writeReg d v).readReg r ≠ s.readReg r) : r = d := by
  by_contra other
  exact changed (s.readReg_writeReg_other d v r other)

theorem registerOp_changes {f : Word → Word → Word} {regA regB r : RegIndex} {fieldC : Field16}
    {s t : State} (h : registerOp f regA regB fieldC s = .next t)
    (changed : t.readReg r ≠ s.readReg r) : fieldC.toNat = r.val := by
  rcases registerOp_cases h with ⟨-, rfl⟩ | ⟨d, names, rfl⟩
  · exact absurd rfl changed
  · rw [State.eq_of_readReg_writeReg_ne changed, names]

/-- Settles O25, by the constructors of the instruction. -/
theorem onlyTheNamedRegisterChanges : Obligations.OnlyTheNamedRegisterChanges := by
  intro i s t r h changed
  cases i with
  | add => exact registerOp_changes h changed
  | nor => exact registerOp_changes h changed
  | lw =>
    rcases execLw_cases h with ⟨-, rfl⟩ | ⟨-, rfl⟩
    · exact absurd rfl changed
    · exact State.eq_of_readReg_writeReg_ne changed
  | sw => rcases execSw_cases h with ⟨-, rfl⟩ | ⟨-, rfl⟩ <;> exact changed rfl
  | beq => rcases execBeq_cases h with ⟨-, rfl⟩ | ⟨-, rfl⟩ <;> exact changed rfl
  | jalr =>
    obtain rfl := execJalr_cases h
    exact State.eq_of_readReg_writeReg_ne changed
  | halt =>
    obtain rfl := execHalt_cases h
    exact changed rfl
  | noop =>
    obtain rfl := execNoop_cases h
    exact changed rfl

/-- Settles O43: the dump lists only words below `N_LOADED`, and the store is at none of them. -/
theorem dumpHidesStoresAboveTheImage : Obligations.DumpHidesStoresAboveTheImage := by
  intro s regA regB offset fits above
  refine ⟨_, (execSw_commits fits).here, ?_⟩
  simp only [State.dump, Effect.apply, State.retire_nLoaded, State.retire_mem, State.retire_pc,
    State.retire_x, Dump.mk.injEq, List.map_inj_left, List.mem_range, true_and, and_true]
  intro a inImage
  exact Memory.read_write_other _ _ (by omega)

/-! ## Runs (R19, R29) -/

theorem run_succ_eq_next {n : Nat} {s t : State} (h : core.run (n + 1) s = .next t) :
    ∃ u : State, step s = .next u ∧ core.run n u = .next t := by
  cases first : core.step s with
  | next u => exact ⟨u, first, by simpa only [Host.Core.run, first] using h⟩
  | fault => simp [Host.Core.run, first] at h
  | refused => simp [Host.Core.run, first] at h

/-- Settles O28, by the number of steps: only the last step can fault. -/
theorem runCountsItsSteps : Obligations.RunCountsItsSteps := by
  intro n
  induction n with
  | zero =>
    intro s t h
    obtain rfl : s = t := by injection h
    exact ⟨fun _ => rfl, fun faulted notFaulted => absurd faulted notFaulted⟩
  | succ n ih =>
    intro s t h
    obtain ⟨u, first, rest⟩ := run_succ_eq_next h
    have count := step_icount first
    obtain ⟨counted, uncounted⟩ := ih u t rest
    by_cases faulted : u.status = .faulted
    · cases n with
      | zero =>
        obtain rfl : u = t := by injection rest
        simp [faulted, count]
      | succ n =>
        obtain ⟨v, second, -⟩ := run_succ_eq_next rest
        exact absurd second (step_ne_next_of_stopped (by simp [faulted]) v)
    · rw [if_neg faulted] at count
      exact ⟨fun notFaulted => by have := counted notFaulted; omega,
        fun ended _ => by have := uncounted ended faulted; omega⟩

theorem hangs_iff_no_exitCode {s : State} : Hangs s ↔ ∀ t : State, Reaches s t → t.exitCode = none := by
  simp only [Hangs, reaches_iff_runFor, exitCode_eq_none_iff, forall_exists_index,
    forall_apply_eq_imp_iff]

/-- A core that a step has halted has counted that step. -/
theorem icount_pos_of_halted {s t : State} (run : Reaches s t) (running : s.status = .running)
    (halted : t.status = .halted) : 1 ≤ t.icount := by
  cases run with
  | refl => simp [running] at halted
  | tail u _ _ last =>
    have count := step_icount last
    simp only [halted, reduceCtorEq, if_false] at count
    omega

/-- Settles O40: the invariant holds in every state that the run reaches. -/
theorem everyRunEndsWithItsReason : Obligations.EveryRunEndsWithItsReason := by
  refine fun c image s legal loaded => ⟨hangs_iff_no_exitCode, fun t run => ?_⟩
  have inv : t.Inv := run.keeps (fun _ _ => step_keeps_inv) (load_inv legal loaded)
  refine ⟨exitCode_eq_none_iff, exitCode_eq_zero_iff, exitCode_eq_one_iff, fun zero => ?_,
    fun one => inv.record (exitCode_eq_one_iff.mp one)⟩
  have halted := exitCode_eq_zero_iff.mp zero
  obtain ⟨w, fetched, halt⟩ := inv.haltedAt halted
  obtain ⟨-, -, atPc⟩ := fetchedWord_cases fetched
  refine ⟨inv.noRecord (by simp [halted]), icount_pos_of_halted run (load_status loaded) halted, ?_⟩
  rw [atPc]
  exact decode_eq_halt_iff.mp halt

end Sys2Proof.Machine
end

section
/-! PROOFS. Memory (20_memory.md): what the canonical form lists, and what a store changes, as the load
and the fetch after it see it. -/

namespace Sys2Proof.Machine

/-! ## The canonical form (R30, R34) -/

theorem Memory.mem_of_read_ne_unlisted {m : Memory} {a : Nat} (h : m.read a ≠ Memory.unlisted) :
    (a, m.read a) ∈ m := by
  induction m with
  | nil => exact absurd rfl h
  | cons c rest ih =>
    obtain ⟨k, u⟩ := c
    rw [Memory.read] at h ⊢
    split at h
    · subst k
      simp
    · rw [if_neg ‹_›]
      exact List.mem_cons_of_mem _ (ih h)

theorem Memory.read_of_mem {m : Memory} (sorted : m.Pairwise (fun c d => c.1 < d.1)) {c : Nat × Word}
    (listed : c ∈ m) : m.read c.1 = c.2 := by
  induction m with
  | nil => cases listed
  | cons d rest ih =>
    obtain ⟨below, rising⟩ := List.pairwise_cons.mp sorted
    rw [Memory.read]
    rcases List.mem_cons.mp listed with rfl | later
    · exact if_pos rfl
    · rw [if_neg (Nat.ne_of_lt (below c later))]
      exact ih rising later

/-- A canonical memory lists exactly the words that read other than an unlisted one. -/
theorem Memory.mem_iff_read {m : Memory} (h : m.wf) {c : Nat × Word} :
    c ∈ m ↔ m.read c.1 = c.2 ∧ c.2 ≠ Memory.unlisted := by
  obtain ⟨sorted, nonzero⟩ := h
  refine ⟨fun listed => ⟨Memory.read_of_mem sorted listed, nonzero c listed⟩, fun ⟨reads, ne⟩ => ?_⟩
  have listed : (c.1, m.read c.1) ∈ m := Memory.mem_of_read_ne_unlisted (by rwa [reads])
  rwa [reads] at listed

/-- Settles O35: such memories list the same cells, and each lists them by rising address. -/
theorem memoriesThatReadAlikeAreEqual : Obligations.MemoriesThatReadAlikeAreEqual := by
  intro m m' wf wf' alike
  have asymm : Std.Asymm fun c d : Nat × Word => c.1 < d.1 := ⟨fun _ _ => Nat.lt_asymm⟩
  have ⟨sorted, _⟩ := wf
  have ⟨sorted', _⟩ := wf'
  refine sorted.eq_of_mem_iff sorted' fun c => ?_
  rw [Memory.mem_iff_read wf, Memory.mem_iff_read wf', alike]

/-! ## What an instruction stores (R31, R33) -/

theorem registerOp_mem {f : Word → Word → Word} {regA regB : RegIndex} {fieldC : Field16}
    {s t : State} (h : registerOp f regA regB fieldC s = .next t) : t.mem = s.mem := by
  rcases registerOp_cases h with ⟨-, rfl⟩ | ⟨d, -, rfl⟩ <;> rfl

/-- Only a sw stores. -/
theorem exec_mem_of_ne_sw {i : Instr} {s t : State} (h : exec i s = .next t)
    (notSw : ∀ (regA regB : RegIndex) (offset : Field16), i ≠ .sw regA regB offset) :
    t.mem = s.mem := by
  cases i with
  | add => exact registerOp_mem h
  | nor => exact registerOp_mem h
  | lw => rcases execLw_cases h with ⟨-, rfl⟩ | ⟨-, rfl⟩ <;> rfl
  | sw => exact absurd rfl (notSw _ _ _)
  | beq => rcases execBeq_cases h with ⟨-, rfl⟩ | ⟨-, rfl⟩ <;> rfl
  | jalr => rw [execJalr_cases h]; rfl
  | halt => rw [execHalt_cases h]; rfl
  | noop => rw [execNoop_cases h]; rfl

theorem execSw_read_other {regA regB : RegIndex} {offset : Field16} {s t : State}
    (h : execSw regA regB offset s = .next t) {a : Nat}
    (other : (a : Int) ≠ effectiveAddress (s.readReg regA) offset) : t.mem.read a = s.mem.read a := by
  rcases execSw_cases h with ⟨-, rfl⟩ | ⟨inside, rfl⟩
  · rfl
  · obtain ⟨low, -⟩ := (s.inMemory_iff _).mp inside
    exact Memory.read_write_other s.mem _ (by omega)

/-- Settles O26: a faulting sw stores nothing, and a sw that commits stores one word. -/
theorem onlyTheStoredWordChanges : Obligations.OnlyTheStoredWordChanges := by
  refine fun i s t h => ⟨fun regA regB offset a isSw other => ?_, exec_mem_of_ne_sw h⟩
  subst isSw
  exact execSw_read_other h other

/-! ## The load and the fetch after a store (R39, R42) -/

@[simp] theorem State.memRead_retire (s : State) (nextPc a : Int) :
    (s.retire nextPc).memRead a = s.memRead a := rfl

theorem State.memRead_memWrite_same {s : State} (wf : s.mem.wf) (a : Int) (v : Word) :
    (s.memWrite a v).memRead a = v :=
  Memory.read_write_same wf a.toNat v

/-- A sw that fits, by the named updates of the state (41_immediate_class.md R86). -/
theorem exec_sw_of_fits {s : State} {regA regB : RegIndex} {offset : Field16}
    (fits : OperandsFit (.sw regA regB offset) s) :
    exec (.sw regA regB offset) s =
      .next ((s.memWrite (effectiveAddress (s.readReg regA) offset) (s.readReg regB)).retire
        (s.pc + 1)) :=
  (execSw_commits fits).here

/-- A lw that fits, likewise (R85). -/
theorem exec_lw_of_fits {s : State} {regA regB : RegIndex} {offset : Field16}
    (fits : OperandsFit (.lw regA regB offset) s) :
    exec (.lw regA regB offset) s =
      .next ((s.writeReg regB (s.memRead (effectiveAddress (s.readReg regA) offset))).retire
        (s.pc + 1)) :=
  (execLw_commits fits).here

/-- Settles O32: the store moves no register and no bound, so the load fits and reads what it wrote. -/
theorem loadSeesTheStoreBeforeIt : Obligations.LoadSeesTheStoreBeforeIt := by
  intro s a b c d off off' wf fits same
  refine ⟨_, _, exec_sw_of_fits fits, exec_lw_of_fits ?_, ?_⟩
  · simpa [OperandsFit, same] using fits
  · simp [same, State.memRead_memWrite_same wf]

theorem field3_eq_regField (w : Word) (lo : Nat) : field3 w lo = regField w (lo + 2) lo := by
  have width : lo + 2 + 1 - lo = 3 := by omega
  exact Fin.ext (by simp [field3_val, regField, bits, width])

/-- The instruction of a word whose opcode bits are those of sw (30_encoding.md R46, R54). -/
theorem decode_eq_sw {w : Word} (opcode : bits w 24 22 = 3) :
    decode w = .sw (regField w 21 19) (regField w 18 16) (fieldsOf w).fieldC := by
  have op : (fieldsOf w).op = 3 := Fin.ext ((field3_val w 22).trans opcode)
  rw [decode, Fields.instr, op, ← field3_eq_regField w 19, ← field3_eq_regField w 16]
  rfl

theorem sext16_fieldC (w : Word) : sext16 (fieldsOf w).fieldC = offsetField w := by
  have low : (fieldsOf w).fieldC.toNat = bits w 15 0 := by simp [fieldsOf_fieldC_toNat, bits]
  have sign : (fieldsOf w).fieldC.getLsbD 15 = true ↔ bits w 15 15 = 1 := by
    simp only [BitVec.getLsbD, fieldsOf_fieldC_toNat, Nat.testBit_eq_decide_div_mod_eq,
      decide_eq_true_eq, bits]
    omega
  simp only [sext16, offsetField, sign, low]

/-- Settles O31: the word that the sw has stored at `pc + 1` is the one the next step fetches. -/
theorem storeToTheNextAddressIsExecuted : Obligations.StoreToTheNextAddressIsExecuted := by
  intro s w about wf opcode ea inside
  have ⟨running, low, _, _⟩ := about
  have atNext : effectiveAddress (s.readReg (regField w 21 19)) (fieldsOf w).fieldC = s.pc + 1 := by
    rw [effectiveAddress, sext16_fieldC]
    exact ea
  have fits : OperandsFit (.sw (regField w 21 19) (regField w 18 16) (fieldsOf w).fieldC) s := by
    rw [OperandsFit, atNext, State.inMemory_iff]
    omega
  have stored := exec_sw_of_fits fits
  rw [atNext, ← decode_eq_sw opcode, ← stepRunsTheDecodedInstruction s w about] at stored
  refine ⟨_, stored, stepRunsTheDecodedInstruction _ _ ⟨running, ?_, inside, ?_⟩⟩
  · rw [State.retire_pc]
    omega
  · exact State.memRead_memWrite_same wf (s.pc + 1) _

end Sys2Proof.Machine
end

section
/-! PROOFS. Encoder and decoder (30_encoding.md R45 to R60): each undoes the other, but for the unused
bits of a word. -/

namespace Sys2Proof

/-! ## Decoding an encoded instruction -/

/-- The decoder takes a canonical word apart into the fields it was put together from (R46, R51). -/
@[simp] theorem fieldsOf_canonicalWord (op : Fin 8) (regA regB : RegIndex) (low16 : Field16) :
    fieldsOf (canonicalWord op regA regB low16) =
      { op := op, fieldA := regA, fieldB := regB, fieldC := low16 } := by
  have hop := op.isLt
  have ha := regA.isLt
  have hb := regB.isLt
  have hc : low16.toNat < 2 ^ 16 := low16.isLt
  have sum := canonicalWord_toNat op regA regB low16
  rw [Fields.mk.injEq]
  refine ⟨Fin.ext ?_, Fin.ext ?_, Fin.ext ?_, BitVec.eq_of_toNat_eq ?_⟩
  · rw [fieldsOf, field3_val]; omega
  · rw [fieldsOf, field3_val]; omega
  · rw [fieldsOf, field3_val]; omega
  · rw [fieldsOf_fieldC_toNat]; omega

theorem decode_canonicalWord (op : Fin 8) (regA regB : RegIndex) (low16 : Field16) :
    decode (canonicalWord op regA regB low16) =
      Fields.instr { op := op, fieldA := regA, fieldB := regB, fieldC := low16 } := by
  rw [decode, fieldsOf_canonicalWord]

/-- Decoding undoes encoding: an encoded instruction is a canonical word of its opcode and operands. -/
@[simp] theorem decode_encode (i : Instr) : decode (encode i) = i := by
  cases i with
  | add regA regB fieldC => exact decode_canonicalWord 0 regA regB fieldC
  | nor regA regB fieldC => exact decode_canonicalWord 1 regA regB fieldC
  | lw regA regB offset => exact decode_canonicalWord 2 regA regB offset
  | sw regA regB offset => exact decode_canonicalWord 3 regA regB offset
  | beq regA regB offset => exact decode_canonicalWord 4 regA regB offset
  | jalr regA regB => exact decode_canonicalWord 5 regA regB 0
  | halt => exact decode_canonicalWord 6 0 0 0
  | noop => exact decode_canonicalWord 7 0 0 0

/-- Settles O1. -/
theorem decodeOfEncodeIsTheInstruction : Obligations.DecodeOfEncodeIsTheInstruction := decode_encode

/-! ## Encoding a decoded word -/

/-- How many low bits of a word with this opcode are unused (R55); bits 31:25 always are. -/
def unusedLowBits (op : Nat) : Nat := if op ≤ 4 then 0 else if op = 5 then 16 else 22

/-- The fields of a word are its bits 24:0 (R46). -/
theorem canonicalWord_fieldsOf_toNat (w : Word) :
    (canonicalWord (fieldsOf w).op (fieldsOf w).fieldA (fieldsOf w).fieldB (fieldsOf w).fieldC).toNat =
      w.toNat % 2 ^ 25 := by
  rw [canonicalWord_toNat, fieldsOf_fieldC_toNat]
  simp only [fieldsOf, field3_val]
  omega

/-- Encoding the instruction that some fields select clears the fields that it does not read: none below
opcode 5, the low half for jalr, all operands for halt and noop (R55). -/
theorem encode_instr_toNat (d : Fields) :
    (encode d.instr).toNat =
      (canonicalWord d.op d.fieldA d.fieldB d.fieldC).toNat / 2 ^ unusedLowBits d.op.val *
        2 ^ unusedLowBits d.op.val := by
  obtain ⟨op, regA, regB, low16⟩ := d
  have ha := regA.isLt
  have hb := regB.isLt
  have hc : low16.toNat < 2 ^ 16 := low16.isLt
  fin_cases op <;>
    simp [Fields.instr, encode, Instr.opcode, canonicalWord_toNat, unusedLowBits] <;> omega

end Sys2Proof

namespace Sys2Proof.Machine

theorem encode_decode_toNat (w : Word) :
    (encode (decode w)).toNat =
      w.toNat % 2 ^ 25 / 2 ^ unusedLowBits (bits w 24 22) * 2 ^ unusedLowBits (bits w 24 22) := by
  have op : (fieldsOf w).op.val = bits w 24 22 := field3_val w 22
  rw [decode, encode_instr_toNat, canonicalWord_fieldsOf_toNat, op]

/-- Masking with ones in bits 24 to `lo` clears the bits above and below. -/
theorem toNat_and_ones (w : Word) {lo : Nat} (h : lo ≤ 25) :
    (w &&& BitVec.ofNat 32 (2 ^ 25 - 2 ^ lo)).toNat = w.toNat % 2 ^ 25 / 2 ^ lo * 2 ^ lo := by
  have ones : 2 ^ 25 - 2 ^ lo = 2 ^ lo * (2 ^ (25 - lo) - 1) := by
    rw [Nat.mul_sub_one, ← Nat.pow_add, Nat.add_sub_cancel' h]
  have small : 2 ^ 25 - 2 ^ lo < 2 ^ 32 := Nat.lt_of_le_of_lt (Nat.sub_le _ _) (by decide)
  rw [BitVec.toNat_and, BitVec.toNat_ofNat, Nat.mod_eq_of_lt small, ones]
  apply Nat.eq_of_testBit_eq
  intro i
  rw [Nat.testBit_and, Nat.testBit_two_pow_mul, Nat.testBit_two_pow_sub_one, Nat.mul_comm _ (2 ^ lo),
    Nat.testBit_two_pow_mul, Nat.testBit_div_two_pow, Nat.testBit_mod_two_pow]
  by_cases low : lo ≤ i
  · have atBit : i - lo < 25 - lo ↔ i < 25 := by omega
    simp [low, atBit, Bool.and_comm]
  · simp [low]

/-- Settles O2: the mask of each class has ones from its lowest used bit up to bit 24. -/
theorem encodeOfDecodeClearsTheUnusedBits : Obligations.EncodeOfDecodeClearsTheUnusedBits := by
  intro w
  apply BitVec.eq_of_toNat_eq
  rw [encode_decode_toNat, unusedLowBits]
  split
  · exact (toNat_and_ones w (lo := 0) (by omega)).symm
  · split
    · exact (toNat_and_ones w (lo := 16) (by omega)).symm
    · exact (toNat_and_ones w (lo := 22) (by omega)).symm

/-- Settles O4: the used bits are all that the encoding of the decoded word keeps, and decoding that
gives the instruction back. -/
theorem unusedBitsNeverChangeTheInstruction : Obligations.UnusedBitsNeverChangeTheInstruction := by
  intro v w sameOp sameRegs sameLow
  have same : encode (decode v) = encode (decode w) := by
    apply BitVec.eq_of_toNat_eq
    rw [encode_decode_toNat, encode_decode_toNat, ← sameOp, unusedLowBits]
    unfold bits at *
    split
    · have := sameRegs (by omega)
      have := sameLow (by omega)
      omega
    · split
      · have := sameRegs (by omega)
        omega
      · omega
  rw [← decode_encode (decode v), same, decode_encode]

/-! ## The fields of a word (R51) -/

theorem fieldsOf_eq_bits (w : Word) :
    fieldsOf w =
      { op := Fin.ofNat 8 (bits w 24 22), fieldA := regField w 21 19, fieldB := regField w 18 16,
        fieldC := BitVec.ofNat 16 (bits w 15 0) } := by
  have low : (fieldsOf w).fieldC = BitVec.ofNat 16 (bits w 15 0) :=
    BitVec.eq_of_toNat_eq (by simp [fieldsOf_fieldC_toNat, bits])
  rw [← low]
  simp only [fieldsOf, field3_eq_regField, regField]

/-- The instruction that the opcode `n` selects with the fields of the word (R54). -/
theorem decode_of_opcode {w : Word} {n : Nat} (opcode : bits w 24 22 = n) :
    decode w =
      Fields.instr
        { op := Fin.ofNat 8 n, fieldA := regField w 21 19, fieldB := regField w 18 16,
          fieldC := BitVec.ofNat 16 (bits w 15 0) } := by
  rw [decode, fieldsOf_eq_bits, opcode]

/-- Settles O3, an opcode at a time. -/
theorem decoderReadsTheFieldsOfEveryWord : Obligations.DecoderReadsTheFieldsOfEveryWord := fun w =>
  ⟨fieldsOf_eq_bits w, decode_of_opcode, decode_of_opcode, decode_of_opcode, decode_of_opcode,
    decode_of_opcode, decode_of_opcode, decode_of_opcode, decode_of_opcode,
    Nat.le_of_lt_succ (Nat.mod_lt _ (by decide))⟩

end Sys2Proof.Machine
end

section
/-! PROOFS. The machine-code text (30_encoding.md R75, R78): the decimal numbers that the assembler
writes, their lines, and what the loader makes of them. -/

namespace Sys2Proof.Machine

/-! ## Decimal numbers (R68, R75) -/

theorem isDigit_eq_charIsDigit (c : Char) : isDigit c = c.isDigit := by
  simp only [isDigit, Char.isDigit, Bool.decide_and]
  rfl

theorem isDigit_of_mem_toDigits {n : Nat} {c : Char} (h : c ∈ Nat.toDigits 10 n) :
    isDigit c = true := by
  rw [isDigit_eq_charIsDigit]
  exact Nat.isDigit_of_mem_toDigits (by decide) (by decide) h

/-- On digits alone, the value is the library's. -/
theorem digitsValue_of_digits (acc : Nat) {t : List Char} (digits : ∀ c ∈ t, isDigit c = true) :
    digitsValue acc t = some (Nat.ofDigitChars 10 t acc) := by
  induction t generalizing acc with
  | nil => rfl
  | cons c rest ih =>
    rw [digitsValue, if_pos (digits c List.mem_cons_self),
      ih _ fun d hd => digits d (List.mem_cons_of_mem c hd), Nat.ofDigitChars_cons]
    rfl

theorem parseDigits_eq_digitsValue {t : Token} (h : t ≠ []) : parseDigits t = digitsValue 0 t := by
  cases t with
  | nil => exact absurd rfl h
  | cons c rest => rfl

theorem parseDigits_toDigits (n : Nat) : parseDigits (Nat.toDigits 10 n) = some n := by
  rw [parseDigits_eq_digitsValue Nat.toDigits_ne_nil,
    digitsValue_of_digits 0 fun _ => isDigit_of_mem_toDigits, Nat.ofDigitChars_ten_toDigits]

/-- A sign is no digit, so a token of digits has none. -/
theorem parseDecimal_of_parseDigits {t : Token} {n : Nat} (h : parseDigits t = some n) :
    parseDecimal t = some (n : Int) := by
  unfold parseDecimal
  split
  · simp [parseDigits, digitsValue, isDigit] at h
  · simp [parseDigits, digitsValue, isDigit] at h
  · rw [h]
    rfl

theorem parseDecimal_renderInt (v : Int) : parseDecimal (renderInt v) = some v := by
  rw [renderInt]
  split
  · rw [parseDecimal, parseDigits_toDigits]
    exact congrArg some (by omega : -(v.natAbs : Int) = v)
  · rw [parseDecimal_of_parseDigits (parseDigits_toDigits _), Int.natAbs_of_nonneg (by omega)]

theorem lineFeed_notMem_renderInt (v : Int) : '\n' ∉ renderInt v := by
  have noDigit : '\n' ∉ Nat.toDigits 10 v.natAbs := fun h =>
    absurd (isDigit_of_mem_toDigits h) (by decide)
  rw [renderInt]
  split
  · simpa using noDigit
  · exact noDigit

/-! ## Lines and words of a text (R62, R78) -/

theorem splitLines_line {line : List Char} (oneLine : '\n' ∉ line) (rest : List Char) :
    splitLines (line ++ '\n' :: rest) = line :: splitLines rest := by
  induction line with
  | nil => rfl
  | cons c cs ih =>
    obtain ⟨notHere, others⟩ := List.ne_and_not_mem_of_not_mem_cons oneLine
    rw [List.cons_append, splitLines, if_neg notHere.symm, ih others]

theorem readWord_renderInt (w : Word) : readWord (renderInt (s32 w)) = some w := by
  have range : -2 ^ 31 ≤ s32 w ∧ s32 w ≤ 2 ^ 31 - 1 := ⟨s32_low w, s32_high w⟩
  rw [readWord, parseDecimal_renderInt]
  simp only [if_pos range, bits32_s32]

/-- The loader reads back the words that a text was written from, line by line. -/
theorem readImage_renderImage (image : List Word) : readImage (renderImage image) = some image := by
  induction image with
  | nil => rfl
  | cons w ws ih =>
    rw [readImage] at ih ⊢
    rw [renderImage, splitLines_line (lineFeed_notMem_renderInt _), readWords, readWord_renderInt, ih]

/-- Settles O49. -/
theorem loaderReadsWhatTheAssemblerWrites : Obligations.LoaderReadsWhatTheAssemblerWrites :=
  readImage_renderImage

/-! ## Texts that the loader refuses (R78) -/

theorem readWord_eq_none {line : List Char}
    (h : ∀ v : Int, parseDecimal line = some v → v < -2 ^ 31 ∨ 2 ^ 31 - 1 < v) :
    readWord line = none := by
  rw [readWord]
  split
  · have := h _ ‹_›
    rw [if_neg (by omega)]
  · rfl

theorem readWords_eq_none {lines : List (List Char)} {line : List Char} (listed : line ∈ lines)
    (malformed : readWord line = none) : readWords lines = none := by
  induction listed with
  | head rest => rw [readWords, malformed]
  | tail l _ ih =>
    rw [readWords, ih]
    cases readWord l <;> rfl

theorem loadText_eq_none {c : Config} {text : List Char} (h : readImage text = none) :
    State.loadText c text = none := by
  rw [State.loadText, h]

theorem loadText_of_readImage {c : Config} {text : List Char} {image : List Word}
    (h : readImage text = some image) : State.loadText c text = State.load c image := by
  rw [State.loadText, h]

theorem simulatorExitCode_of_refused {c : Config} {text : List Char}
    (h : State.loadText c text = none) (fuel : Nat) : simulatorExitCode c text fuel = some 1 := by
  rw [simulatorExitCode, h]

/-- Settles O42: one malformed line leaves the whole text without words. -/
theorem malformedTextIsRefused : Obligations.MalformedTextIsRefused := by
  intro c text line fuel listed malformed
  have refused : State.loadText c text = none :=
    loadText_eq_none (readWords_eq_none listed (readWord_eq_none malformed))
  exact ⟨refused, simulatorExitCode_of_refused refused fuel⟩

end Sys2Proof.Machine
end

section
/-! PROOFS. The assembler (30_encoding.md R61 to R79): what each operand reads as, the label table of
pass 1, the word that pass 2 emits for a line, and from these the statements about source programs. -/

namespace Sys2Proof.Machine

/-! ## Operands (R67 to R71, R73) -/

/-- A sequence of two steps succeeds exactly when both do. -/
theorem except_bind_eq_ok {ε α β : Type} {x : Except ε α} {f : α → Except ε β} {b : β} :
    x >>= f = .ok b ↔ ∃ a : α, x = .ok a ∧ f a = .ok b := by
  cases x with
  | error e => exact ⟨nofun, fun ⟨_, h, _⟩ => nomatch h⟩
  | ok a => exact ⟨fun h => ⟨a, rfl, h⟩, fun ⟨_, h, last⟩ => Except.ok.inj h ▸ last⟩

theorem registerOperand_eq_ok_iff {t : Token} {r : RegIndex} :
    registerOperand t = .ok r ↔ IsRegister t r := by
  have bound := r.isLt
  rw [IsRegister, registerOperand]
  cases parseDecimal t with
  | none => exact ⟨nofun, nofun⟩
  | some v =>
    by_cases range : 0 ≤ v ∧ v ≤ 7
    · simp only [dif_pos range, Except.ok.injEq, Option.some.injEq, Fin.ext_iff]
      omega
    · simp only [dif_neg range, reduceCtorEq, Option.some.injEq, false_iff]
      omega

theorem registerOperand_eq_error {t : Token}
    (h : ∀ v : Int, parseDecimal t = some v → v < 0 ∨ 7 < v) :
    registerOperand t = .error .registerRange := by
  rw [registerOperand]
  split
  · rfl
  · have := h _ ‹_›
    rw [dif_neg (by omega)]

/-- Settles O48. -/
theorem registerOperandsEncodeExactlyInRange : Obligations.RegisterOperandsEncodeExactlyInRange :=
  fun _ => ⟨fun _ => registerOperand_eq_ok_iff, registerOperand_eq_error⟩

theorem sext16_ofInt {v : Int} (low : -32768 ≤ v) (high : v ≤ 32767) :
    sext16 (BitVec.ofInt 16 v) = v := by
  rw [sext16_eq_toInt, BitVec.toInt_ofInt]
  exact Int.bmod_eq_of_le (by norm_num; omega) (by norm_num; omega)

/-- An offset is stored as the field that sign extension reads it back from (R71). -/
theorem storeOffset_eq_ok_iff {v : Int} {f : Field16} : storeOffset v = .ok f ↔ sext16 f = v := by
  rw [storeOffset]
  constructor
  · intro h
    split at h
    · rename_i range
      rw [← Except.ok.inj h, sext16_ofInt range.1 range.2]
    · exact nomatch h
  · rintro rfl
    rw [if_pos ⟨sext16_low f, sext16_high f⟩, sext16_eq_toInt, BitVec.ofInt_toInt]

/-- Settles O47. -/
theorem offsetsAreStoredExactlyInRange : Obligations.OffsetsAreStoredExactlyInRange := by
  refine fun v => ⟨fun ⟨low, high⟩ => ?_, fun outside => by rw [storeOffset, if_neg (by omega)]⟩
  have back := sext16_ofInt low high
  have field := sext16_sub_toNat_mod (BitVec.ofInt 16 v)
  have bound : (BitVec.ofInt 16 v).toNat < 65536 := (BitVec.ofInt 16 v).isLt
  exact ⟨_, storeOffset_eq_ok_iff.mpr back, by omega, back⟩

/-- The word of a `.fill` is the pattern of its value (R73). -/
theorem fillWord_eq_ok_iff {v : Int} {w : Word} : fillWord v = .ok w ↔ s32 w = v := by
  rw [fillWord]
  constructor
  · intro h
    split at h
    · rename_i range
      rw [← Except.ok.inj h, s32_bits32 v range.1 range.2]
    · exact nomatch h
  · rintro rfl
    rw [if_pos ⟨s32_low w, s32_high w⟩, bits32_s32]

theorem destField_toNat (d : RegIndex) : (destField d).toNat = d.val := by
  have bound := d.isLt
  rw [destField, BitVec.toNat_ofNat]
  omega

/-! ## The label table (R61, R65, R66) -/

theorem Symbols.define_eq_ok_iff {tab tab' : Symbols} {name : Token} {address : Nat} :
    tab.define name address = .ok tab' ↔
      validLabel name = true ∧ tab.lookup name = none ∧ (name, address) :: tab = tab' := by
  rw [Symbols.define]
  cases validLabel name <;> cases tab.lookup name <;> simp

theorem Symbols.resolve_eq_ok_iff {tab : Symbols} {name : Token} {address : Nat} :
    tab.resolve name = .ok address ↔ name ≠ [] ∧ tab.lookup name = some address := by
  rw [Symbols.resolve]
  cases tab.lookup name <;> split <;> simp [*]

theorem Symbols.lookup_bound (tab : Symbols) (label name : Token) (address : Nat) :
    List.lookup name ((label, address) :: tab) =
      if name = label then some address else tab.lookup name := by
  rw [List.lookup_cons]
  by_cases same : name = label
  · simp [same]
  · simp [same, beq_eq_false_iff_ne.mpr same]

/-- What pass 1 does with a line: an empty label is passed over, another one is new and valid,
and bound. -/
theorem bindLabels_cons {address : Nat} {tab tab' : Symbols} {l : SourceLine} {rest : List SourceLine}
    (h : bindLabels address tab (l :: rest) = .ok tab') :
    (l.label = [] ∧ bindLabels (address + 1) tab rest = .ok tab') ∨
      (validLabel l.label = true ∧ tab.lookup l.label = none ∧
        bindLabels (address + 1) ((l.label, address) :: tab) rest = .ok tab') := by
  rw [bindLabels] at h
  split at h
  · exact .inl ⟨‹_›, h⟩
  · split at h
    · exact nomatch h
    · obtain ⟨valid, new, rfl⟩ := Symbols.define_eq_ok_iff.mp ‹_›
      exact .inr ⟨valid, new, h⟩

/-- Pass 1 changes no binding that it finds. -/
theorem bindLabels_keeps {address a : Nat} {tab tab' : Symbols} {lines : List SourceLine} {name : Token}
    (h : bindLabels address tab lines = .ok tab') (bound : tab.lookup name = some a) :
    tab'.lookup name = some a := by
  induction lines generalizing address tab with
  | nil => rwa [← Except.ok.inj h]
  | cons l rest ih =>
    rcases bindLabels_cons h with ⟨-, later⟩ | ⟨-, new, later⟩
    · exact ih later bound
    · have other : name ≠ l.label := by
        rintro rfl
        exact nomatch new.symm.trans bound
      exact ih later (by rwa [Symbols.lookup_bound, if_neg other])

/-- Pass 1 binds the label of every line that has one, to the line's address. -/
theorem bindLabels_binds {address k : Nat} {tab tab' : Symbols} {lines : List SourceLine}
    {l : SourceLine} (h : bindLabels address tab lines = .ok tab') (line : lines[k]? = some l)
    (labelled : l.label ≠ []) :
    validLabel l.label = true ∧ tab'.lookup l.label = some (address + k) := by
  induction lines generalizing address tab k with
  | nil => simp at line
  | cons top rest ih =>
    rcases k with _ | k
    · obtain rfl : top = l := by simpa using line
      rcases bindLabels_cons h with ⟨empty, -⟩ | ⟨valid, -, later⟩
      · exact absurd empty labelled
      · exact ⟨valid, bindLabels_keeps later List.lookup_cons_self⟩
    · rw [List.getElem?_cons_succ] at line
      rw [show address + (k + 1) = address + 1 + k by omega]
      rcases bindLabels_cons h with ⟨-, later⟩ | ⟨-, -, later⟩
      · exact ih later line
      · exact ih later line

/-- Pass 1 binds nothing else: a binding was there before, or it is a line's label at its address. -/
theorem bindLabels_only {address a : Nat} {tab tab' : Symbols} {lines : List SourceLine} {name : Token}
    (h : bindLabels address tab lines = .ok tab') (bound : tab'.lookup name = some a) :
    tab.lookup name = some a ∨
      ∃ (k : Nat) (l : SourceLine), lines[k]? = some l ∧ l.label = name ∧ a = address + k := by
  induction lines generalizing address tab with
  | nil => exact .inl (by rwa [Except.ok.inj h])
  | cons top rest ih =>
    have later {t : Symbols} (h : bindLabels (address + 1) t rest = .ok tab') :
        t.lookup name = some a ∨
          ∃ (k : Nat) (l : SourceLine),
            (top :: rest)[k]? = some l ∧ l.label = name ∧ a = address + k :=
      (ih h).imp_right fun ⟨k, l, line, named, at_k⟩ => ⟨k + 1, l, line, named, by omega⟩
    rcases bindLabels_cons h with ⟨-, h⟩ | ⟨-, -, h⟩
    · exact later h
    · rcases later h with here | there
      · rw [Symbols.lookup_bound] at here
        split at here
        · exact .inr ⟨0, top, rfl, Eq.symm ‹_›, (Option.some.inj here).symm⟩
        · exact .inl here
      · exact .inr there

/-! ## The word of a line (R69 to R74) -/

/-- Every binding of the table is the label of a line, with that line's address. -/
def Symbols.LabelsOf (tab : Symbols) (lines : List SourceLine) : Prop :=
  ∀ (name : Token) (k : Nat), tab.lookup name = some k → ∃ l, lines[k]? = some l ∧ l.label = name

theorem labelsOf_bindLabels {tab : Symbols} {lines : List SourceLine}
    (h : bindLabels 0 [] lines = .ok tab) : tab.LabelsOf lines := by
  intro name a bound
  rcases bindLabels_only h bound with before | ⟨k, l, line, named, rfl⟩
  · exact nomatch before
  · exact ⟨l, by rwa [Nat.zero_add], named⟩

section Line

variable {tab : Symbols} {lines : List SourceLine} (sound : tab.LabelsOf lines)
include sound

/-- A resolved operand is a decimal integer, or a label with the address of its line (R69). -/
theorem resolveOperand_cases {t : Token} {r : Resolved} (h : resolveOperand tab t = .ok r) :
    (∃ v : Int, r = .literal v ∧ parseDecimal t = some v) ∨
      ∃ k : Nat, r = .label k ∧ IsLabelOf lines t k := by
  rw [resolveOperand] at h
  split at h
  · exact .inl ⟨_, (Except.ok.inj h).symm, ‹_›⟩
  · split at h
    · obtain ⟨nonempty, bound⟩ := Symbols.resolve_eq_ok_iff.mp ‹_›
      exact .inr ⟨_, (Except.ok.inj h).symm, nonempty, ‹_›, sound _ _ bound⟩
    · exact nomatch h

theorem hasValue_absolute {t : Token} {r : Resolved} (h : resolveOperand tab t = .ok r) :
    HasValue lines t r.absolute := by
  rcases resolveOperand_cases sound h with ⟨v, rfl, literal⟩ | ⟨k, rfl, label⟩
  · exact .inl literal
  · exact .inr ⟨k, label, rfl⟩

theorem hasDisplacement_relative {t : Token} {r : Resolved} (here : Nat)
    (h : resolveOperand tab t = .ok r) : HasDisplacement lines here t (r.relative here) := by
  rcases resolveOperand_cases sound h with ⟨v, rfl, literal⟩ | ⟨k, rfl, label⟩
  · exact .inl literal
  · exact .inr ⟨k, label, rfl⟩

/-- The word that pass 2 emits for a line says that line, whatever its mnemonic (R79). -/
theorem saysLine_encodeLine {here : Nat} {l : SourceLine} {w : Word}
    (h : encodeLine tab here l = .ok w) : SaysLine lines here l w := by
  unfold SaysLine
  unfold encodeLine at h
  cases m : mnemonicOf l.opcode with
  | none => simp [m] at h
  | some mnemonic =>
    cases mnemonic <;>
      simp only [m, except_bind_eq_ok, registerOperand_eq_ok_iff, storeOffset_eq_ok_iff,
        fillWord_eq_ok_iff, pure, Except.pure, Except.ok.injEq] at h ⊢
    case add | nor =>
      obtain ⟨a, ha, b, hb, d, hd, rfl⟩ := h
      exact ⟨a, b, d, destField d, ha, hb, hd, destField_toNat d, decode_encode _⟩
    case lw | sw =>
      obtain ⟨a, ha, b, hb, r, hr, offset, stored, rfl⟩ := h
      exact ⟨a, b, offset, ha, hb, stored ▸ hasValue_absolute sound hr, decode_encode _⟩
    case beq =>
      obtain ⟨a, ha, b, hb, r, hr, offset, stored, rfl⟩ := h
      exact ⟨a, b, offset, ha, hb, stored ▸ hasDisplacement_relative sound here hr, decode_encode _⟩
    case jalr =>
      obtain ⟨a, ha, b, hb, rfl⟩ := h
      exact ⟨a, b, ha, hb, decode_encode _⟩
    case halt | noop => rw [← h, decode_encode]
    case fill =>
      obtain ⟨r, hr, value⟩ := h
      exact value ▸ hasValue_absolute sound hr

end Line

/-! ## The words of a program (R61, R77) -/

theorem encodeLines_cons {tab : Symbols} {address : Nat} {l : SourceLine} {rest : List SourceLine}
    {ws : List Word} (h : encodeLines tab address (l :: rest) = .ok ws) :
    ∃ (w : Word) (later : List Word), ws = w :: later ∧ encodeLine tab address l = .ok w ∧
      encodeLines tab (address + 1) rest = .ok later := by
  rw [encodeLines] at h
  split at h
  · exact nomatch h
  · split at h
    · exact nomatch h
    · exact ⟨_, _, (Except.ok.inj h).symm, ‹_›, ‹_›⟩

theorem length_encodeLines {tab : Symbols} {address : Nat} {lines : List SourceLine} {ws : List Word}
    (h : encodeLines tab address lines = .ok ws) : ws.length = lines.length := by
  induction lines generalizing address ws with
  | nil => rw [← Except.ok.inj h]; rfl
  | cons l rest ih =>
    obtain ⟨w, later, rfl, -, rest⟩ := encodeLines_cons h
    rw [List.length_cons, List.length_cons, ih rest]

theorem getElem?_encodeLines {tab : Symbols} {address k : Nat} {lines : List SourceLine}
    {ws : List Word} {w : Word} (h : encodeLines tab address lines = .ok ws) (word : ws[k]? = some w) :
    ∃ l : SourceLine, lines[k]? = some l ∧ encodeLine tab (address + k) l = .ok w := by
  induction lines generalizing address k ws with
  | nil => simp [← Except.ok.inj h] at word
  | cons l rest ih =>
    obtain ⟨top, later, rfl, encoded, rest⟩ := encodeLines_cons h
    cases k with
    | zero => exact ⟨l, rfl, Option.some.inj word ▸ encoded⟩
    | succ k =>
      rw [show address + (k + 1) = address + 1 + k by omega]
      exact ih rest word

/-- A source that assembles passed both passes (R77). -/
theorem assemble_eq_ok {source : List Char} {ws : List Word} (h : assemble source = .ok ws) :
    ∃ tab : Symbols, bindLabels 0 [] ((splitLines source).map splitFields) = .ok tab ∧
      encodeLines tab 0 ((splitLines source).map splitFields) = .ok ws := by
  rw [assemble] at h
  split at h
  · exact nomatch h
  · split at h
    · exact nomatch h
    · exact ⟨_, ‹_›, h⟩

/-- Settles O45: the table holds the program's labels, and each word is the encoding of its line. -/
theorem assembledWordsDecodeToTheirLines : Obligations.AssembledWordsDecodeToTheirLines := by
  intro source ws h k w word
  obtain ⟨tab, pass1, pass2⟩ := assemble_eq_ok h
  obtain ⟨l, line, encoded⟩ := getElem?_encodeLines pass2 word
  rw [Nat.zero_add] at encoded
  exact ⟨l, line, saysLine_encodeLine (labelsOf_bindLabels pass1) encoded⟩

/-- Settles O44. -/
theorem assemblerEmitsOneWordPerLine : Obligations.AssemblerEmitsOneWordPerLine := by
  intro source ws h
  obtain ⟨tab, -, pass2⟩ := assemble_eq_ok h
  rw [length_encodeLines pass2, List.length_map]

/-! ## Labels of a program (R65, R66) -/

theorem length_le_of_validLabel {name : Token} (h : validLabel name = true) : name.length ≤ 6 := by
  cases name with
  | nil => exact Nat.zero_le 6
  | cons c rest =>
    simp only [validLabel, Bool.and_eq_true, decide_eq_true_eq] at h
    exact h.2

theorem isDigit_head_of_validLabel {name : Token} (h : validLabel name = true) {c : Char}
    (begins : name.head? = some c) : isDigit c = false := by
  cases name with
  | nil => exact nomatch begins
  | cons d rest =>
    simp only [validLabel, Bool.and_eq_true, Bool.not_eq_true'] at h
    exact Option.some.inj begins ▸ h.1

/-- Settles O46: a label is bound to the address of every line that has it, so there is one. -/
theorem assembledLabelsAreUniqueAndValid : Obligations.AssembledLabelsAreUniqueAndValid := by
  intro source ws j k l m h lineJ lineK labelled
  obtain ⟨tab, pass1, -⟩ := assemble_eq_ok h
  obtain ⟨valid, boundJ⟩ := bindLabels_binds pass1 lineJ labelled
  refine ⟨fun same => ?_, length_le_of_validLabel valid, fun _ => isDigit_head_of_validLabel valid⟩
  obtain ⟨-, boundK⟩ := bindLabels_binds pass1 lineK (same ▸ labelled)
  rw [same, boundK, Option.some.injEq] at boundJ
  omega

/-! ## From source to memory (R44, R75, R78) -/

theorem runAssembler_of_ok {source : List Char} {ws : List Word} (h : assemble source = .ok ws) :
    runAssembler source = { output := some (renderImage ws), exitCode := 0 } := by
  rw [runAssembler, h]

/-- Settles O50: the loader reads the written words back, and loading puts them in order from 0. -/
theorem assembledProgramLoadsLineByLine : Obligations.AssembledProgramLoadsLineByLine := by
  intro c source ws h fits
  obtain ⟨s, loaded, -, count, -, -, words, -⟩ := (loadGivesTheResetState c ws).2 fits
  refine ⟨renderImage ws, s, runAssembler_of_ok h, ?_, ?_, words⟩
  · rw [loadText_of_readImage (readImage_renderImage ws), loaded]
  · rw [count, assemblerEmitsOneWordPerLine source ws h]

end Sys2Proof.Machine
end

section
/-! PROOFS. The register class, add and nor (40_register_class.md): what a step that runs one of them does,
said once for both, and the two functions as arithmetic. -/

namespace Sys2Proof.Machine

/-! ## The two functions (R80, R81) -/

/-- add is the integer sum up to a multiple of `2^32` (R80). -/
theorem toInt_addWord_congr (a b : Word) :
    ((addWord a b).toInt - (a.toInt + b.toInt)) % 2 ^ 32 = 0 := by
  rw [addWord_eq_add, BitVec.toInt_add, ← Int.emod_eq_emod_iff_emod_sub_eq_zero]
  exact Int.bmod_emod

theorem getLsbD_norWord (a b : Word) {k : Nat} (h : k < 32) :
    (norWord a b).getLsbD k = !(a.getLsbD k || b.getLsbD k) := by
  simp [norWord, h]

@[simp] theorem norWord_self (b : Word) : norWord b b = ~~~b := by
  rw [norWord, BitVec.or_self]

/-- Settles O34: `nor(b, b) + 1` is the two's-complement negation of `b`. -/
theorem addAndNorSubtract : Obligations.AddAndNorSubtract := by
  intro a b
  calc addWord (addWord a (norWord b b)) 1
      = a + (~~~b + 1) := by rw [addWord_eq_add, addWord_eq_add, norWord_self, BitVec.add_assoc]
    _ = a + -b := congrArg (a + ·) (BitVec.neg_eq_not_add b).symm
    _ = a - b := (BitVec.sub_eq_add_neg a b).symm

/-! ## A step that runs a register-class word -/

theorem toNat_ofNat_bits (w : Word) : (BitVec.ofNat 16 (bits w 15 0)).toNat = bits w 15 0 := by
  simp [bits]

/-- A `fieldC` up to 7 is the number in its three low bits (30_encoding.md R53). -/
theorem regField_val_of_fits {w : Word} (fits : bits w 15 0 ≤ 7) : (regField w 2 0).val = bits w 15 0 := by
  simp only [regField, bits, Fin.val_ofNat] at fits ⊢
  omega

/-- The destination of a register-class word whose `fieldC` names a register (R53). -/
theorem destRegister_ofNat_bits {w : Word} (fits : bits w 15 0 ≤ 7) :
    destRegister (BitVec.ofNat 16 (bits w 15 0)) = some (regField w 2 0) := by
  rw [destRegister_eq_some_iff, toNat_ofNat_bits, regField_val_of_fits fits]

/-- An instruction that writes one register and goes on leaves all else alone. -/
theorem State.retire_writeReg_frame (s : State) (d : RegIndex) (v : Word) (nextPc : Int) :
    SameRegistersBut d s ((s.writeReg d v).retire nextPc) ∧
      SameMemory s ((s.writeReg d v).retire nextPc) ∧
      OtherwiseUnchanged s ((s.writeReg d v).retire nextPc) :=
  ⟨s.readReg_writeReg_other d v, fun _ => rfl, ⟨rfl, rfl⟩, ⟨rfl, rfl⟩, rfl⟩

section RegisterWord

/-! `f` is the function of the register-class instruction that the word at the pc decodes to. -/

variable {f : Word → Word → Word} {s : State} {w : Word} (about : s.AboutToRun w)
  (runs : exec (decode w) s =
    registerOp f (regField w 21 19) (regField w 18 16) (BitVec.ofNat 16 (bits w 15 0)) s)
include about runs

/-- A destination above 7 raises REG_INDEX_OUT_OF_RANGE with the record of R101 (60_exceptions.md R104). -/
theorem step_registerWord_raises (above : 7 < bits w 15 0) :
    step s = .next (s.faultedWith .regIndexOutOfRange (some w) (some (bits w 15 0 : Int))) := by
  have ran := runs
  rw [registerOp, destRegister_of_gt _ (by rwa [toNat_ofNat_bits]), toNat_ofNat_bits] at ran
  rw [stepRunsTheDecodedInstruction s w about, ran, ← (aboutToRun_iff.mp about).2]
  rfl

/-- Else the destination takes `f` of the sources as they were, and nothing else but the pc and the count
changes. -/
theorem step_registerWord_commits (fits : bits w 15 0 ≤ 7) :
    ∃ t : State, step s = .next t ∧ exec (decode w) s = .next t ∧
      t.readReg (regField w 2 0) = f (s.readReg (regField w 21 19)) (s.readReg (regField w 18 16)) ∧
      t.pc = s.pc + 1 ∧
      SameRegistersBut (regField w 2 0) s t ∧ SameMemory s t ∧ OtherwiseUnchanged s t := by
  have ran := runs
  rw [registerOp, destRegister_ofNat_bits fits] at ran
  exact ⟨_, (stepRunsTheDecodedInstruction s w about).trans ran, ran, by simp, rfl,
    s.retire_writeReg_frame _ _ _⟩

end RegisterWord

/-- Settles O12: an opcode 0 selects add, whose function is the wrapped sum. -/
theorem addWordAddsAndWraps : Obligations.AddWordAddsAndWraps := by
  intro s w about opcode
  have runs := congrArg (exec · s) (decode_of_opcode opcode)
  refine ⟨step_registerWord_raises (f := addWord) about runs, fun fits => ?_⟩
  obtain ⟨t, stepped, ran, written, rest⟩ := step_registerWord_commits (f := addWord) about runs fits
  refine ⟨t, stepped, ran, ?_, rest⟩
  rw [written]
  exact toInt_addWord_congr _ _

/-- Settles O13: an opcode 1 selects nor, whose function acts bit by bit. -/
theorem norWordComplementsTheOr : Obligations.NorWordComplementsTheOr := by
  intro s w about opcode
  have runs := congrArg (exec · s) (decode_of_opcode opcode)
  refine ⟨step_registerWord_raises (f := norWord) about runs, fun fits => ?_⟩
  obtain ⟨t, stepped, ran, written, rest⟩ := step_registerWord_commits (f := norWord) about runs fits
  refine ⟨t, stepped, ran, fun k low => ?_, rest⟩
  rw [written]
  exact getLsbD_norWord _ _ low

/-! ## The examples of the spec (30_encoding.md R59, 95_test_vectors.md) -/

/-- Settles O5, by running the decoder on the ten words. -/
theorem exampleWordsDecodeAsTheSpecSays : Obligations.ExampleWordsDecodeAsTheSpecSays := by
  unfold Obligations.ExampleWordsDecodeAsTheSpecSays
  decide

end Sys2Proof.Machine
end

section
/-! PROOFS. The immediate class, lw, sw and beq (41_immediate_class.md): what a step that runs one of them
does, said once for the two that access memory, and the beq that branches to itself. -/

namespace Sys2Proof.Machine

/-! ## The offset of an immediate-class word (R6, R84) -/

theorem sext16_ofNat_bits (w : Word) : sext16 (BitVec.ofNat 16 (bits w 15 0)) = offsetField w := by
  rw [← sext16_fieldC, fieldsOf_eq_bits]

theorem effectiveAddress_ofNat_bits (base w : Word) :
    effectiveAddress base (BitVec.ofNat 16 (bits w 15 0)) = base.toInt + offsetField w := by
  rw [effectiveAddress, sext16_ofNat_bits, s32]

theorem branchTarget_ofNat_bits (pc : Int) (w : Word) :
    branchTarget pc (BitVec.ofNat 16 (bits w 15 0)) = pc + 1 + offsetField w := by
  rw [branchTarget, sext16_ofNat_bits, Int.add_right_comm]

/-- The least and the greatest offset (00_scope.md R6). -/
theorem offsetField_bounds (w : Word) : -32768 ≤ offsetField w ∧ offsetField w ≤ 32767 := by
  rw [← sext16_fieldC]
  exact ⟨sext16_low _, sext16_high _⟩

/-- A low half of ones is the offset -1 (R6). -/
theorem offsetField_of_ones {w : Word} (ones : bits w 15 0 = 65535) : offsetField w = -1 := by
  rw [← sext16_ofNat_bits, ones]
  decide

/-! ## The bounds of memory (R30, R102), and what the class leaves alone -/

theorem State.inMemory_eq_false_iff (s : State) (a : Int) :
    s.inMemory a = false ↔ a < 0 ∨ (s.config.memSize : Int) ≤ a := by
  rw [← Bool.not_eq_true, s.inMemory_iff]
  omega

/-- A step from a pc outside memory fetches no word and raises PC_OUT_OF_RANGE (60_exceptions.md R102). -/
theorem step_of_pc_outside {s : State} (running : s.status = .running)
    (outside : s.pc < 0 ∨ (s.config.memSize : Int) ≤ s.pc) :
    step s = .next (s.faultedWith .pcOutOfRange none none) := by
  have noFetch := s.fetchedWord_eq_none_iff.mpr ((s.inMemory_eq_false_iff s.pc).mpr outside)
  rw [step_of_no_fetch running noFetch, State.faultedWith, ← noFetch]
  rfl

/-- An instruction that only goes on leaves all else alone. -/
theorem State.retire_frame (s : State) (nextPc : Int) :
    SameRegisters s (s.retire nextPc) ∧ SameMemory s (s.retire nextPc) ∧
      OtherwiseUnchanged s (s.retire nextPc) :=
  ⟨fun _ => rfl, fun _ => rfl, ⟨rfl, rfl⟩, ⟨rfl, rfl⟩, rfl⟩

/-- An instruction that stores one word and goes on leaves all else alone. -/
theorem State.retire_memWrite_frame (s : State) (a : Int) (v : Word) (nextPc : Int) :
    SameMemoryBut a.toNat s ((s.memWrite a v).retire nextPc) ∧
      SameRegisters s ((s.memWrite a v).retire nextPc) ∧
      OtherwiseUnchanged s ((s.memWrite a v).retire nextPc) :=
  ⟨fun _ => Memory.read_write_other s.mem v, fun _ => rfl, ⟨rfl, rfl⟩, ⟨rfl, rfl⟩, rfl⟩

/-! ## A step that runs a lw or a sw -/

section MemoryWord

/-! `access` is the data access of the instruction that the word at the pc decodes to, and `ea` its
effective address. -/

variable {access : Int → State} {s : State} {w : Word} {ea : Int} (about : s.AboutToRun w)
  (runs : exec (decode w) s =
    memoryOp access (regField w 21 19) (BitVec.ofNat 16 (bits w 15 0)) s)
  (address : ea = (s.readReg (regField w 21 19)).toInt + offsetField w)
include about runs address

/-- An address outside memory raises MEM_ADDR_OUT_OF_RANGE with it in the record (60_exceptions.md
R103). -/
theorem step_memoryWord_raises (outside : ea < 0 ∨ (s.config.memSize : Int) ≤ ea) :
    step s = .next (s.faultedWith .memAddrOutOfRange (some w) (some ea)) := by
  rw [← effectiveAddress_ofNat_bits] at address
  subst address
  have unfit := ne_true_of_eq_false ((s.inMemory_eq_false_iff _).mpr outside)
  rw [stepRunsTheDecodedInstruction s w about, runs, memoryOp_of_not_inMemory access unfit,
    ← (aboutToRun_iff.mp about).2]
  rfl

/-- Else the access is made there, and the core goes on to `pc + 1` (R85, R86). -/
theorem step_memoryWord_commits (inside : 0 ≤ ea ∧ ea < s.config.memSize) :
    step s = .next ((access ea).retire (s.pc + 1)) ∧
      exec (decode w) s = .next ((access ea).retire (s.pc + 1)) := by
  rw [← effectiveAddress_ofNat_bits] at address
  subst address
  have ran := runs.trans (memoryOp_of_inMemory access ((s.inMemory_iff _).mpr inside))
  exact ⟨(stepRunsTheDecodedInstruction s w about).trans ran, ran⟩

end MemoryWord

/-- Settles O14: an opcode 2 selects lw, whose access writes one register. -/
theorem lwWordLoadsFromTheExactAddress : Obligations.LwWordLoadsFromTheExactAddress := by
  intro s w ea about opcode address
  have runs : exec (decode w) s =
      memoryOp (fun a => s.writeReg (regField w 18 16) (s.memRead a)) _ _ s :=
    congrArg (exec · s) (decode_of_opcode opcode)
  refine ⟨step_memoryWord_raises about runs address, fun inside => ?_⟩
  obtain ⟨stepped, ran⟩ := step_memoryWord_commits about runs address inside
  exact ⟨_, stepped, ran, s.readReg_writeReg_same _ _, rfl, s.retire_writeReg_frame _ _ _⟩

/-- Settles O15: an opcode 3 selects sw, whose access writes one word of memory. -/
theorem swWordStoresToTheExactAddress : Obligations.SwWordStoresToTheExactAddress := by
  intro s w ea about wf opcode address
  have runs : exec (decode w) s =
      memoryOp (fun a => s.memWrite a (s.readReg (regField w 18 16))) _ _ s :=
    congrArg (exec · s) (decode_of_opcode opcode)
  refine ⟨step_memoryWord_raises about runs address, fun inside => ?_⟩
  obtain ⟨stepped, ran⟩ := step_memoryWord_commits about runs address inside
  exact ⟨_, stepped, ran, State.memRead_memWrite_same wf ea _, rfl, s.retire_memWrite_frame _ _ _⟩

/-! ## A step that runs a beq -/

/-- A beq only goes on: to the branch target when the registers agree, else to `pc + 1` (R87). -/
theorem exec_beqWord (s : State) {w : Word} (opcode : bits w 24 22 = 4) :
    ∃ nextPc : Int, exec (decode w) s = .next (s.retire nextPc) ∧
      (s.readReg (regField w 21 19) = s.readReg (regField w 18 16) →
        nextPc = s.pc + 1 + offsetField w) ∧
      (s.readReg (regField w 21 19) ≠ s.readReg (regField w 18 16) → nextPc = s.pc + 1) := by
  rw [decode_of_opcode opcode, ← branchTarget_ofNat_bits]
  exact ⟨_, execBeq_commits.here, fun equal => if_pos (beq_iff_eq.mpr equal),
    fun differ => if_neg (differ <| beq_iff_eq.mp ·)⟩

/-- Settles O16: either way the step only goes on, and it is the next one that checks the new pc. -/
theorem beqWordBranchesOnEquality : Obligations.BeqWordBranchesOnEquality := by
  intro s w about opcode
  obtain ⟨nextPc, ran, taken, notTaken⟩ := exec_beqWord s opcode
  obtain ⟨registers, memory, rest⟩ := s.retire_frame nextPc
  refine ⟨_, (stepRunsTheDecodedInstruction s w about).trans ran, ran, fun equal => ?_, notTaken,
    registers, memory, rest, step_of_pc_outside about.1⟩
  obtain ⟨low, high⟩ := offsetField_bounds w
  rw [State.retire_pc, taken equal]
  omega

/-! ## The branch to itself (70_reset_and_hazards.md R126) -/

/-- Where a step does no more than count, whatever the count, so does a run. -/
theorem runFor_of_step_counts {s : State}
    (counts : ∀ c : Nat, step { s with icount := c } = .next { s with icount := c + 1 }) (n c : Nat) :
    runFor n { s with icount := c } = { s with icount := c + n } := by
  induction n generalizing c with
  | zero => rfl
  | succ n ih =>
    rw [runFor, counts]
    exact (ih (c + 1)).trans (by rw [Nat.add_assoc, Nat.add_comm 1])

/-- Settles O29: the branch comes back to its own word at every count, so no step does more than
count. -/
theorem branchToItselfHangs : Obligations.BranchToItselfHangs := by
  intro s w about opcode sameRegister ones
  have counts (c : Nat) : step { s with icount := c } = .next { s with icount := c + 1 } := by
    obtain ⟨nextPc, ran, taken, -⟩ := exec_beqWord { s with icount := c } opcode
    rw [stepRunsTheDecodedInstruction { s with icount := c } w about, ran, taken (by rw [sameRegister]),
      offsetField_of_ones ones, Int.add_neg_cancel_right]
    rfl
  have run (n : Nat) : runFor n s = { s with icount := s.icount + n } :=
    runFor_of_step_counts counts n s.icount
  exact ⟨fun n => (congrArg State.status (run n)).trans about.1, run⟩

end Sys2Proof.Machine
end

section
/-! PROOFS. The jump class, jalr (42_jump_class.md): the link as a number, where a jalr goes, and the return
through the link. -/

namespace Sys2Proof.Machine

/-- In a memory of legal size the link of an instruction there is the number `pc + 1`: it does not wrap
(R90, log 10). -/
theorem State.toInt_link {s : State} (legal : s.config.Legal) (low : 0 ≤ s.pc)
    (high : s.pc < s.config.memSize) : (bits32 (s.pc + 1)).toInt = s.pc + 1 := by
  obtain ⟨-, small⟩ := legal
  exact s32_bits32 (s.pc + 1) (by omega) (by omega)

/-- A jalr writes the link and goes on, to the link it has just written when the registers are the same,
else to the target register as it was (R90). -/
theorem exec_jalr (s : State) (regA regB : RegIndex) :
    ∃ nextPc : Int,
      exec (.jalr regA regB) s = .next ((s.writeReg regB (bits32 (s.pc + 1))).retire nextPc) ∧
      (regA = regB → nextPc = (bits32 (s.pc + 1)).toInt) ∧
      (regA ≠ regB → nextPc = (s.readReg regA).toInt) := by
  refine ⟨_, execJalr_commits.here, fun same => ?_, fun differ => ?_⟩
  · rw [same, s.readReg_writeReg_same, s32]
  · rw [s.readReg_writeReg_other _ _ _ differ, s32]

/-- Settles O17: an opcode 5 selects jalr, whose link is `pc + 1` because the word is in memory. -/
theorem jalrWordLinksThenJumps : Obligations.JalrWordLinksThenJumps := by
  intro s w about legal opcode
  have link : (bits32 (s.pc + 1)).toInt = s.pc + 1 := by
    obtain ⟨-, low, high, -⟩ := about
    exact State.toInt_link legal low high
  obtain ⟨nextPc, jumped, same, differ⟩ := exec_jalr s (regField w 21 19) (regField w 18 16)
  have ran := (congrArg (exec · s) (decode_of_opcode opcode)).trans jumped
  refine ⟨_, (stepRunsTheDecodedInstruction s w about).trans ran, ran, ?_,
    fun equal => (same equal).trans link, differ, s.retire_writeReg_frame _ _ _⟩
  rw [State.readReg_retire, State.readReg_writeReg_same, link]

/-- Settles O33: the second jalr has a link register of its own, so it reads the first one's link. -/
theorem callAndReturnComeBack : Obligations.CallAndReturnComeBack := by
  intro s target link spare legal low high apart
  obtain ⟨_, called, -, -⟩ := exec_jalr s target link
  refine ⟨_, called, fun u kept => ?_⟩
  obtain ⟨backPc, returned, -, back⟩ := exec_jalr u link spare
  refine ⟨_, returned, ?_⟩
  calc backPc
      = (u.readReg link).toInt := back apart.symm
    _ = (bits32 (s.pc + 1)).toInt := by rw [kept, State.readReg_retire, State.readReg_writeReg_same]
    _ = s.pc + 1 := State.toInt_link legal low high

end Sys2Proof.Machine
end

section
/-! PROOFS. The no-operand class, halt and noop (43_no_operand_class.md): what each of the two words does,
and the step after it. -/

namespace Sys2Proof.Machine

/-- A halt commits, and the core stops at the halt's own address (R95). -/
theorem exec_haltWord (s : State) {w : Word} (opcode : bits w 24 22 = 6) :
    exec (decode w) s = .next (s.retireHalted s.pc) := by
  rw [decode_eq_halt_iff.mpr opcode]
  exact execHalt_halts.here

/-- A noop only goes on (R96). -/
theorem exec_noopWord (s : State) {w : Word} (opcode : bits w 24 22 = 7) :
    exec (decode w) s = .next (s.retire (s.pc + 1)) := by
  rw [decode_of_opcode opcode]
  exact execNoop_commits.here

/-- Settles O18: the halted core is stopped, so it takes no step. -/
theorem haltWordStopsTheCore : Obligations.HaltWordStopsTheCore := by
  intro s w about opcode
  have ran := exec_haltWord s opcode
  have stopped : (s.retireHalted s.pc).status ≠ .running := by simp
  exact ⟨_, (stepRunsTheDecodedInstruction s w about).trans ran, ran, rfl,
    step_ne_next_of_stopped stopped⟩

/-- Settles O19: the core still runs after the noop, and a pc of MEM_SIZE is outside memory. -/
theorem noopWordOnlyAdvances : Obligations.NoopWordOnlyAdvances := by
  intro s w about opcode
  have ran := exec_noopWord s opcode
  refine ⟨_, (stepRunsTheDecodedInstruction s w about).trans ran, ran, rfl, fun atEnd => ?_⟩
  have running : (s.retire (s.pc + 1)).status = .running := about.1
  exact step_of_pc_outside running (.inr atEnd.ge)

end Sys2Proof.Machine
end

section
/-! PROOFS. Faults (60_exceptions.md): which check an instruction or a step fails when it leaves a record,
said once for all the fault codes, and what a faulting step leaves alone. -/

namespace Sys2Proof.Machine

/-! ## What a fault record says of the instruction (R101, R103, R104) -/

theorem HasEffect.eq_apply {act : State → Host.Outcome State Fault Refusal} {s t : State} {e : Effect}
    (h : HasEffect act s e) (ran : act s = .next t) : t = e.apply s := by
  simpa using ran.symm.trans h.here

theorem HasEffect.code_of_raises {act : State → Host.Outcome State Fault Refusal} {s t : State}
    {code : FaultCode} {addr : Option Int} {r : FaultRecord} (h : HasEffect act s (.raises code addr))
    (ran : act s = .next t) (record : t.fault = some r) : r.code = code := by
  obtain rfl := h.eq_apply ran
  obtain rfl : _ = r := Option.some.inj record
  rfl

theorem not_operandsFit_of_record {i : Instr} {s t : State} {r : FaultRecord} (ran : exec i s = .next t)
    (noRecord : s.fault = none) (record : t.fault = some r) : ¬ OperandsFit i s := by
  obtain ⟨e, hasEffect, raises_iff, -⟩ := exists_effectOf i s
  obtain rfl := hasEffect.eq_apply ran
  rw [← raises_iff, ← e.fault_apply_ne_none_iff noRecord, record]
  exact Option.some_ne_none r

/-- A record that an instruction writes has one of two codes, and each code says which check failed. -/
theorem exec_record_cases {i : Instr} {s t : State} {r : FaultRecord} (ran : exec i s = .next t)
    (noRecord : s.fault = none) (record : t.fault = some r) :
    (r.code = .regIndexOutOfRange ∧
      ∃ (regA regB : RegIndex) (fieldC : Field16), 7 < fieldC.toNat ∧
        (i = .add regA regB fieldC ∨ i = .nor regA regB fieldC)) ∨
    (r.code = .memAddrOutOfRange ∧
      ∃ (regA regB : RegIndex) (offset : Field16),
        (i = .lw regA regB offset ∨ i = .sw regA regB offset) ∧
        s.inMemory (effectiveAddress (s.readReg regA) offset) = false) := by
  have unfit := not_operandsFit_of_record ran noRecord record
  cases i with
  | add regA regB fieldC =>
    exact .inl ⟨(registerOp_raises addWord unfit).code_of_raises ran record,
      regA, regB, fieldC, not_le.mp unfit, .inl rfl⟩
  | nor regA regB fieldC =>
    exact .inl ⟨(registerOp_raises norWord unfit).code_of_raises ran record,
      regA, regB, fieldC, not_le.mp unfit, .inr rfl⟩
  | lw regA regB offset =>
    exact .inr ⟨(execLw_raises unfit).code_of_raises ran record,
      regA, regB, offset, .inl rfl, eq_false_of_ne_true unfit⟩
  | sw regA regB offset =>
    exact .inr ⟨(execSw_raises unfit).code_of_raises ran record,
      regA, regB, offset, .inr rfl, eq_false_of_ne_true unfit⟩
  | beq | jalr | halt | noop => exact absurd trivial unfit

/-- Settles O20: an instruction's record with this code names the destination check. -/
theorem registerIndexFaultExactlyAboveSeven : Obligations.RegisterIndexFaultExactlyAboveSeven := by
  refine fun s => ⟨fun regA regB fieldC above => ?_, fun i t r ran noRecord record code => ?_⟩
  · have unfit : ¬ fieldC.toNat ≤ 7 := not_le.mpr above
    exact ⟨(registerOp_raises addWord unfit).here, (registerOp_raises norWord unfit).here⟩
  · rcases exec_record_cases ran noRecord record with ⟨-, cause⟩ | ⟨other, -⟩
    · exact cause
    · cases code.symm.trans other

theorem effectiveAddress_eq_toInt (base : Word) (offset : Field16) :
    effectiveAddress base offset = base.toInt + offset.toInt := by
  rw [effectiveAddress, s32, sext16_eq_toInt]

/-- Settles O21: an instruction's record with this code names the address check. -/
theorem memoryFaultExactlyOutsideMemory : Obligations.MemoryFaultExactlyOutsideMemory := by
  refine fun s => ⟨fun regA regB offset ea address outside => ?_,
    fun i t r ran noRecord record code => ?_⟩
  · rw [← effectiveAddress_eq_toInt] at address
    subst address
    have unfit := ne_true_of_eq_false ((s.inMemory_eq_false_iff _).mpr outside)
    exact ⟨(execLw_raises unfit).here, (execSw_raises unfit).here⟩
  · rcases exec_record_cases ran noRecord record with ⟨other, -⟩ | ⟨-, cause⟩
    · cases code.symm.trans other
    · exact cause

/-! ## What a fault says of the step (R102, R105, R107) -/

/-- A record that a step writes has the fetch's own code, or one of an instruction's two. -/
theorem step_record_cases {s t : State} {r : FaultRecord} (h : step s = .next t)
    (noRecord : s.fault = none) (record : t.fault = some r) :
    (r.code = .pcOutOfRange ∧ s.inMemory s.pc = false) ∨ r.code = .regIndexOutOfRange ∨
      r.code = .memAddrOutOfRange := by
  obtain ⟨-, ⟨noFetch, rfl⟩ | ⟨w, -, ran⟩⟩ := step_cases h
  · obtain rfl : _ = r := Option.some.inj record
    exact .inl ⟨rfl, s.fetchedWord_eq_none_iff.mp noFetch⟩
  · exact .inr ((exec_record_cases ran noRecord record).imp And.left And.left)

/-- Settles O8: the codes of an instruction are others than the fetch's. -/
theorem fetchOutsideMemoryFaults : Obligations.FetchOutsideMemoryFaults := by
  refine fun s running => ⟨step_of_pc_outside running, fun t r h noRecord record code => ?_⟩
  rcases step_record_cases h noRecord record with ⟨-, outside⟩ | other | other
  · exact (s.inMemory_eq_false_iff s.pc).mp outside
  · cases code.symm.trans other
  · cases code.symm.trans other

/-- Settles O24: a record that a step writes has one of three other codes. -/
theorem unrecognizedOpcodeIsNeverRaised : Obligations.UnrecognizedOpcodeIsNeverRaised := by
  intro s t r h noRecord record
  rcases step_record_cases h noRecord record with ⟨code, -⟩ | code | code <;> simp [code]

/-- Settles O22: without a fetch the step faults, and else it has its instruction's effect. -/
theorem stepFaultsExactlyWhenACheckFails : Obligations.StepFaultsExactlyWhenACheckFails := by
  intro s t h
  obtain ⟨running, ⟨noFetch, rfl⟩ | ⟨w, fetched, ran⟩⟩ := step_cases h
  · have outside := ne_true_of_eq_false (s.fetchedWord_eq_none_iff.mp noFetch)
    rw [s.inMemory_iff] at outside
    exact iff_of_true rfl (.inl outside)
  · obtain ⟨low, high, -⟩ := fetchedWord_cases fetched
    obtain ⟨e, hasEffect, raises_iff, -⟩ := exists_effectOf (decode w) s
    obtain rfl := hasEffect.eq_apply ran
    rw [e.status_apply_eq_faulted_iff running, raises_iff]
    simp [aboutToRun_iff, running, fetched, low, high]

/-! ## What a faulting step leaves alone (R100, R106) -/

/-- Settles O23: a step that faults does nothing but raise. -/
theorem faultsArePreciseAndFinal : Obligations.FaultsArePreciseAndFinal := by
  intro s t h faulted
  have stopped : t.status ≠ .running := by simp [faulted]
  obtain ⟨running, e, rfl, -, -⟩ := step_effect h
  have raises := (e.status_apply_eq_faulted_iff running).mp faulted
  cases e with
  | raises code addr =>
    exact ⟨fun _ => rfl, rfl, rfl, rfl, ⟨rfl, rfl⟩, ⟨_, rfl, rfl⟩, step_ne_next_of_stopped stopped⟩
  | commits | halts => exact raises.elim

end Sys2Proof.Machine
end
